-- ==== Sys2Proof/Word.lean ====
section
/-! DEFINITION. The machine's words and the two plain shapes of its state that are not words (00_scope.md R6, R8). -/

namespace Sys2Proof

/-- u8 (R8): a general register, a byte of memory, a timer, a phosphor value. -/
abbrev Byte := BitVec 8

/-- u16 (R8): an instruction word, the program counter, a return address. -/
abbrev Word := BitVec 16

/-- u12 (R8): an address field NNN, the address register I. -/
abbrev Addr := BitVec 12

/-- A 4-bit register number, field X or Y of an instruction (30_encoding.md R53). -/
abbrev Reg := BitVec 4

/-- A 4-bit key code, 0x0 to 0xF (44_keypad.md R100). -/
abbrev Key := BitVec 4

/-- A display grid `array[64][32]`, indexed first by column x, then by row y (10_state.md R26, R27). -/
abbrev Grid (α : Type) := Vector (Vector α 32) 64

/-- The key-wait state of the input latch (10_state.md R29, 44_keypad.md R102). -/
inductive WaitState where
  /-- No wait pending. -/
  | idle
  /-- An FX0A waits, and no candidate key has been captured. -/
  | awaitingPress
  /-- An FX0A waits, and key `k` has been captured: the wait resolves when `k` is released. -/
  | awaitingRelease (k : Key)
  deriving DecidableEq, Repr, Inhabited

end Sys2Proof
end

