-- ==== Sys2Proof/Machine/Flags.lean ====
section
/-! DEFINITION. Every value an instruction writes to VF as a flag (10_state.md R16). -/

namespace Sys2Proof.Machine

/-- A truth value as a flag. -/
def flagOf (b : Bool) : Byte := if b then 1 else 0

/-- 8XY4: 1 if and only if the exact sum exceeds 255 (41_alu.md R84). -/
def carryFlag (x y : Byte) : Byte := flagOf (decide (255 < x.toNat + y.toNat))

/-- 8XY5 and 8XY7: 1 if and only if the minuend is at least the subtrahend, no borrow (R85, R87). -/
def noBorrowFlag (minuend subtrahend : Byte) : Byte := flagOf (decide (subtrahend.toNat ≤ minuend.toNat))

/-- 8XY6: bit 0 before the shift (R86). -/
def lostRightFlag (x : Byte) : Byte := x &&& 1

/-- 8XYE: bit 7 before the shift (R88). -/
def lostLeftFlag (x : Byte) : Byte := (x >>> 7) &&& 1

/-- DXYN: 1 if and only if a set sprite bit turned an on pixel off (45_display.md R112). -/
def collisionFlag (coll : Bool) : Byte := flagOf coll

end Sys2Proof.Machine
end

