-- ==== Sys2Proof/Syntax.lean ====
section
/-! DEFINITION. The instructions: one constructor per row of spec/opcode_table.json, in its order (30_encoding.md R56). -/

namespace Sys2Proof

/-- One instruction with its operand fields at the widths of 30_encoding.md R53 and R54. -/
inductive Instr where
  /-- 0NNN with NNN not 0E0 or 0EE: SYS NNN (40_control_flow.md R67). -/
  | sys (nnn : Addr)
  /-- 00E0: CLS (45_display.md R111). -/
  | cls
  /-- 00EE: RET (40_control_flow.md R68). -/
  | ret
  /-- 1NNN: JP NNN (R69). -/
  | jp (nnn : Addr)
  /-- 2NNN: CALL NNN (R70). -/
  | call (nnn : Addr)
  /-- 3XNN: SE VX, NN (R72). -/
  | seImm (x : Reg) (nn : Byte)
  /-- 4XNN: SNE VX, NN (R73). -/
  | sneImm (x : Reg) (nn : Byte)
  /-- 5XY0: SE VX, VY (R74). -/
  | seReg (x y : Reg)
  /-- 6XNN: LD VX, NN (41_alu.md R78). -/
  | ldImm (x : Reg) (nn : Byte)
  /-- 7XNN: ADD VX, NN (R79). -/
  | addImm (x : Reg) (nn : Byte)
  /-- 8XY0: LD VX, VY (R80). -/
  | ldReg (x y : Reg)
  /-- 8XY1: OR VX, VY (R81). -/
  | orReg (x y : Reg)
  /-- 8XY2: AND VX, VY (R82). -/
  | andReg (x y : Reg)
  /-- 8XY3: XOR VX, VY (R83). -/
  | xorReg (x y : Reg)
  /-- 8XY4: ADD VX, VY (R84). -/
  | addReg (x y : Reg)
  /-- 8XY5: SUB VX, VY (R85). -/
  | subReg (x y : Reg)
  /-- 8XY6: SHR VX; the field Y is there and ignored (R86, 30_encoding.md R60). -/
  | shr (x y : Reg)
  /-- 8XY7: SUBN VX, VY (R87). -/
  | subnReg (x y : Reg)
  /-- 8XYE: SHL VX; the field Y is there and ignored (R88, 30_encoding.md R60). -/
  | shl (x y : Reg)
  /-- 9XY0: SNE VX, VY (40_control_flow.md R75). -/
  | sneReg (x y : Reg)
  /-- ANNN: LD I, NNN (42_index_memory.md R91). -/
  | ldI (nnn : Addr)
  /-- BNNN: JP V0, NNN (40_control_flow.md R71). -/
  | jpV0 (nnn : Addr)
  /-- CXNN: RND VX, NN (41_alu.md R89). -/
  | rnd (x : Reg) (nn : Byte)
  /-- DXYN: DRW VX, VY, N (45_display.md R112). -/
  | drw (x y : Reg) (n : BitVec 4)
  /-- EX9E: SKP VX (44_keypad.md R105). -/
  | skp (x : Reg)
  /-- EXA1: SKNP VX (R106). -/
  | sknp (x : Reg)
  /-- FX07: LD VX, DT (43_timers.md R97). -/
  | ldVxDt (x : Reg)
  /-- FX0A: LD VX, K (44_keypad.md R107). -/
  | ldVxK (x : Reg)
  /-- FX15: LD DT, VX (43_timers.md R98). -/
  | ldDtVx (x : Reg)
  /-- FX18: LD ST, VX (R99). -/
  | ldStVx (x : Reg)
  /-- FX1E: ADD I, VX (42_index_memory.md R92). -/
  | addI (x : Reg)
  /-- FX29: LD F, VX (R93). -/
  | ldF (x : Reg)
  /-- FX33: LD B, VX (R94). -/
  | ldB (x : Reg)
  /-- FX55: LD [I], VX (R95). -/
  | stRegs (x : Reg)
  /-- FX65: LD VX, [I] (R96). -/
  | ldRegs (x : Reg)
  deriving DecidableEq, Repr

end Sys2Proof
end

