-- ==== Sys2Proof/WellFormed.lean ====
section
/-! DEFINITION. Which instructions are well formed: those some word decodes to. The field widths are in the type, so
the one check left is the exclusion in row 0NNN of the opcode table (30_encoding.md R56, R59). -/

namespace Sys2Proof

/-- 0NNN is SYS only for NNN other than 0E0 (CLS) and 0EE (RET) (R56 row 1, R59). -/
def Instr.sysOperandLegal (nnn : Addr) : Bool := nnn != 0x0E0#12 && nnn != 0x0EE#12

/-- The well-formed instructions. -/
def Instr.wellFormed : Instr → Bool
  | .sys nnn => Instr.sysOperandLegal nnn
  | .cls | .ret | .jp _ | .call _ | .seImm _ _ | .sneImm _ _ | .seReg _ _ | .ldImm _ _ | .addImm _ _
  | .ldReg _ _ | .orReg _ _ | .andReg _ _ | .xorReg _ _ | .addReg _ _ | .subReg _ _ | .shr _ _
  | .subnReg _ _ | .shl _ _ | .sneReg _ _ | .ldI _ | .jpV0 _ | .rnd _ _ | .drw _ _ _ | .skp _ | .sknp _
  | .ldVxDt _ | .ldVxK _ | .ldDtVx _ | .ldStVx _ | .addI _ | .ldF _ | .ldB _ | .stRegs _ | .ldRegs _ => true

end Sys2Proof
end

