-- ==== Sys2Proof/Decode.lean ====
section
/-! DEFINITION. Decoding, total over every word and every list of bytes and refusing by name, and the encoder
written from the same formats (30_encoding.md R52 to R58). -/

namespace Sys2Proof

/-- Why bytes are not an instruction. -/
inductive DecodeError where
  /-- The word is one of the illegal words of 30_encoding.md R58. Raised by `decode`. -/
  | unknownOpcode (w : Word)
  /-- Fewer than two bytes were given, so there is no word to decode. Raised by `decodeBytes`. -/
  | truncated
  deriving DecidableEq, Repr

/-- Field c, w[15:12] (R53). -/
def classOf (w : Word) : BitVec 4 := w.extractLsb' 12 4

/-- Field X, w[11:8] (R53). -/
def xOf (w : Word) : Reg := w.extractLsb' 8 4

/-- Field Y, w[7:4] (R53). -/
def yOf (w : Word) : Reg := w.extractLsb' 4 4

/-- Field N, w[3:0] (R53). -/
def nOf (w : Word) : BitVec 4 := w.extractLsb' 0 4

/-- Field NN, w[7:0] (R53). -/
def nnOf (w : Word) : Byte := w.extractLsb' 0 8

/-- Field NNN, w[11:0] (R53). -/
def nnnOf (w : Word) : Addr := w.extractLsb' 0 12

/-- Class 0 (R57, R59): CLS and RET are two whole words, every other word is SYS. -/
def decodeClass0 (w : Word) : Instr :=
  if w = 0x00E0#16 then .cls else if w = 0x00EE#16 then .ret else .sys (nnnOf w)

/-- Class 8 (R57): N selects the operation, and N in 8, 9, A, B, C, D, F is illegal. -/
def decodeClass8 (w : Word) : Except DecodeError Instr :=
  let x := xOf w
  let y := yOf w
  let n := nOf w
  if n = 0x0#4 then .ok (.ldReg x y)
  else if n = 0x1#4 then .ok (.orReg x y)
  else if n = 0x2#4 then .ok (.andReg x y)
  else if n = 0x3#4 then .ok (.xorReg x y)
  else if n = 0x4#4 then .ok (.addReg x y)
  else if n = 0x5#4 then .ok (.subReg x y)
  else if n = 0x6#4 then .ok (.shr x y)
  else if n = 0x7#4 then .ok (.subnReg x y)
  else if n = 0xE#4 then .ok (.shl x y)
  else .error (.unknownOpcode w)

/-- Class E (R57): NN selects the key query. -/
def decodeClassE (w : Word) : Except DecodeError Instr :=
  let nn := nnOf w
  if nn = 0x9E#8 then .ok (.skp (xOf w))
  else if nn = 0xA1#8 then .ok (.sknp (xOf w))
  else .error (.unknownOpcode w)

/-- Class F (R57): NN selects the operation. -/
def decodeClassF (w : Word) : Except DecodeError Instr :=
  let x := xOf w
  let nn := nnOf w
  if nn = 0x07#8 then .ok (.ldVxDt x)
  else if nn = 0x0A#8 then .ok (.ldVxK x)
  else if nn = 0x15#8 then .ok (.ldDtVx x)
  else if nn = 0x18#8 then .ok (.ldStVx x)
  else if nn = 0x1E#8 then .ok (.addI x)
  else if nn = 0x29#8 then .ok (.ldF x)
  else if nn = 0x33#8 then .ok (.ldB x)
  else if nn = 0x55#8 then .ok (.stRegs x)
  else if nn = 0x65#8 then .ok (.ldRegs x)
  else .error (.unknownOpcode w)

/-- Decode of one word (R57): total, one of the 35 variants or UnknownOpcode. -/
def decode (w : Word) : Except DecodeError Instr :=
  let c := classOf w
  if c = 0x0#4 then .ok (decodeClass0 w)
  else if c = 0x1#4 then .ok (.jp (nnnOf w))
  else if c = 0x2#4 then .ok (.call (nnnOf w))
  else if c = 0x3#4 then .ok (.seImm (xOf w) (nnOf w))
  else if c = 0x4#4 then .ok (.sneImm (xOf w) (nnOf w))
  else if c = 0x5#4 then
    if nOf w = 0x0#4 then .ok (.seReg (xOf w) (yOf w)) else .error (.unknownOpcode w)
  else if c = 0x6#4 then .ok (.ldImm (xOf w) (nnOf w))
  else if c = 0x7#4 then .ok (.addImm (xOf w) (nnOf w))
  else if c = 0x8#4 then decodeClass8 w
  else if c = 0x9#4 then
    if nOf w = 0x0#4 then .ok (.sneReg (xOf w) (yOf w)) else .error (.unknownOpcode w)
  else if c = 0xA#4 then .ok (.ldI (nnnOf w))
  else if c = 0xB#4 then .ok (.jpV0 (nnnOf w))
  else if c = 0xC#4 then .ok (.rnd (xOf w) (nnOf w))
  else if c = 0xD#4 then .ok (.drw (xOf w) (yOf w) (nOf w))
  else if c = 0xE#4 then decodeClassE w
  else decodeClassF w

/-- The word of two bytes, the one at the lower address first: big-endian (R52, 20_memory.md R41). -/
def wordOfBytes (hi lo : Byte) : Word := hi ++ lo

/-- The byte of a word that lies at the lower address (R52). -/
def highByte (w : Word) : Byte := w.extractLsb' 8 8

/-- The byte of a word that lies at the higher address (R52). -/
def lowByte (w : Word) : Byte := w.extractLsb' 0 8

/-- Decode of the first instruction of a list of bytes, with the bytes after it (R52, R57). -/
def decodeBytes : List Byte → Except DecodeError (Instr × List Byte)
  | hi :: lo :: rest => (decode (wordOfBytes hi lo)).map (fun i => (i, rest))
  | [_] | [] => .error .truncated

/-- Format `NNN` (R54). -/
def formatNNN (c : BitVec 4) (nnn : Addr) : Word := c ++ nnn

/-- Format `XNN` (R54), and format `X` with a fixed sub-opcode for NN. -/
def formatXNN (c : BitVec 4) (x : Reg) (nn : Byte) : Word := c ++ x ++ nn

/-- Format `XYN` (R54), and format `XY` with a fixed sub-opcode for N. -/
def formatXYN (c : BitVec 4) (x y : Reg) (n : BitVec 4) : Word := c ++ x ++ y ++ n

/-- The word of an instruction (R54, R56). For an ill-formed SYS it is the word of CLS or RET. -/
def encode : Instr → Word
  | .sys nnn => formatNNN 0x0 nnn
  | .cls => 0x00E0#16
  | .ret => 0x00EE#16
  | .jp nnn => formatNNN 0x1 nnn
  | .call nnn => formatNNN 0x2 nnn
  | .seImm x nn => formatXNN 0x3 x nn
  | .sneImm x nn => formatXNN 0x4 x nn
  | .seReg x y => formatXYN 0x5 x y 0x0
  | .ldImm x nn => formatXNN 0x6 x nn
  | .addImm x nn => formatXNN 0x7 x nn
  | .ldReg x y => formatXYN 0x8 x y 0x0
  | .orReg x y => formatXYN 0x8 x y 0x1
  | .andReg x y => formatXYN 0x8 x y 0x2
  | .xorReg x y => formatXYN 0x8 x y 0x3
  | .addReg x y => formatXYN 0x8 x y 0x4
  | .subReg x y => formatXYN 0x8 x y 0x5
  | .shr x y => formatXYN 0x8 x y 0x6
  | .subnReg x y => formatXYN 0x8 x y 0x7
  | .shl x y => formatXYN 0x8 x y 0xE
  | .sneReg x y => formatXYN 0x9 x y 0x0
  | .ldI nnn => formatNNN 0xA nnn
  | .jpV0 nnn => formatNNN 0xB nnn
  | .rnd x nn => formatXNN 0xC x nn
  | .drw x y n => formatXYN 0xD x y n
  | .skp x => formatXNN 0xE x 0x9E
  | .sknp x => formatXNN 0xE x 0xA1
  | .ldVxDt x => formatXNN 0xF x 0x07
  | .ldVxK x => formatXNN 0xF x 0x0A
  | .ldDtVx x => formatXNN 0xF x 0x15
  | .ldStVx x => formatXNN 0xF x 0x18
  | .addI x => formatXNN 0xF x 0x1E
  | .ldF x => formatXNN 0xF x 0x29
  | .ldB x => formatXNN 0xF x 0x33
  | .stRegs x => formatXNN 0xF x 0x55
  | .ldRegs x => formatXNN 0xF x 0x65

/-- The bytes of an instruction in memory, the lower address first (R52). -/
def encodeBytes (i : Instr) : List Byte := [highByte (encode i), lowByte (encode i)]

/-- The "mask" column of spec/opcode_table.json: the bits of a word that the instruction's row fixes. -/
def opcodeMask : Instr → Word
  | .cls | .ret => 0xFFFF#16
  | .sys _ | .jp _ | .call _ | .seImm _ _ | .sneImm _ _ | .ldImm _ _ | .addImm _ _ | .ldI _ | .jpV0 _
  | .rnd _ _ | .drw _ _ _ => 0xF000#16
  | .seReg _ _ | .ldReg _ _ | .orReg _ _ | .andReg _ _ | .xorReg _ _ | .addReg _ _ | .subReg _ _ | .shr _ _
  | .subnReg _ _ | .shl _ _ | .sneReg _ _ => 0xF00F#16
  | .skp _ | .sknp _ | .ldVxDt _ | .ldVxK _ | .ldDtVx _ | .ldStVx _ | .addI _ | .ldF _ | .ldB _ | .stRegs _
  | .ldRegs _ => 0xF0FF#16

/-- The "match" column of spec/opcode_table.json: the value of the fixed bits. -/
def opcodeMatch : Instr → Word
  | .sys _ => 0x0000#16
  | .cls => 0x00E0#16
  | .ret => 0x00EE#16
  | .jp _ => 0x1000#16
  | .call _ => 0x2000#16
  | .seImm _ _ => 0x3000#16
  | .sneImm _ _ => 0x4000#16
  | .seReg _ _ => 0x5000#16
  | .ldImm _ _ => 0x6000#16
  | .addImm _ _ => 0x7000#16
  | .ldReg _ _ => 0x8000#16
  | .orReg _ _ => 0x8001#16
  | .andReg _ _ => 0x8002#16
  | .xorReg _ _ => 0x8003#16
  | .addReg _ _ => 0x8004#16
  | .subReg _ _ => 0x8005#16
  | .shr _ _ => 0x8006#16
  | .subnReg _ _ => 0x8007#16
  | .shl _ _ => 0x800E#16
  | .sneReg _ _ => 0x9000#16
  | .ldI _ => 0xA000#16
  | .jpV0 _ => 0xB000#16
  | .rnd _ _ => 0xC000#16
  | .drw _ _ _ => 0xD000#16
  | .skp _ => 0xE09E#16
  | .sknp _ => 0xE0A1#16
  | .ldVxDt _ => 0xF007#16
  | .ldVxK _ => 0xF00A#16
  | .ldDtVx _ => 0xF015#16
  | .ldStVx _ => 0xF018#16
  | .addI _ => 0xF01E#16
  | .ldF _ => 0xF029#16
  | .ldB _ => 0xF033#16
  | .stRegs _ => 0xF055#16
  | .ldRegs _ => 0xF065#16

/-- The instruction this decoder reads from a table word: the word's two bytes, the high one first. -/
def decodeTableWord (nbits w : Nat) : Option Instr :=
  let word : Word := BitVec.ofNat 16 (w % 2 ^ nbits)
  match decodeBytes [highByte word, lowByte word] with
  | .ok (i, _) => some i
  | .error _ => none

end Sys2Proof
end

