-- ==== Sys2Proof/Config.lean ====
section
/-! DEFINITION. What the spec leaves open: the OPEN parameters of 00_scope.md R6 and the free values, as constants
without a body, so that nothing can be proved of one value of them. -/

namespace Sys2Proof

/-- FONT_BASE, OPEN: a natural number with FONT_BASE + 80 ≤ 0x200, so 0 to 0x1B0 (R6, R136). Log entry 5. -/
opaque Config.fontBase : Fin 433

/-- FONT_TABLE, OPEN: the 80 glyph bytes, glyph g at offsets 5g to 5g + 4 (R6, R134). Log entry 6. -/
opaque Config.fontTable : Fin 80 → Byte

/-- DECAY_STEP less one, OPEN: DECAY_STEP is an integer 1 to 255 (R6, 45_display.md R113). Log entry 7. -/
opaque Config.decayStepLessOne : Fin 255

/-- COLOR_MAP(ch, p), OPEN: a fixed total function of the channel and the phosphor value (45_display.md R114).
Log entry 8. -/
opaque Config.colorMap : Fin 4 → Byte → Byte

/-- The random byte of the n-th draw for which the host named no byte: a free draw under no law
(41_alu.md R89, 60_exceptions.md R129). Log entry 2. -/
opaque Config.randomByte : Nat → Byte

/-- Every part of the state that 60_exceptions.md R119 leaves unspecified after a fault, at the widths of 10_state.md.
`depth` and `entries` give the stack, `byteAt` the bytes of memory. -/
structure Config.Remains where
  V : Vector Byte 16
  I : Addr
  PC : Word
  depth : Fin 13
  entries : Vector Word 12
  DT : Byte
  ST : Byte
  lit : Grid Bool
  phos : Grid Byte
  pressed : BitVec 16
  wait : WaitState
  byteAt : Nat → Byte
  rbuf : Option (Vector Byte 8192)
  deriving Inhabited

/-- What the n-th fault leaves behind: unknown (R119, "A model treats them as unknown"). Log entry 3. -/
opaque Config.remains : Nat → Config.Remains

end Sys2Proof
end

