-- ==== Sys2Proof/Machine/Params.lean ====
section
/-! DEFINITION. The parameters of 00_scope.md R6, each under its name there. -/

namespace Sys2Proof.Machine

/-- MEM_SIZE: the addresses of memory are those below it (20_memory.md R37). -/
def memSize : Nat := 0x1000

/-- ROM_BASE, where the ROM is placed (70_reset_and_hazards.md R134). -/
def romBase : Nat := 0x200

/-- The longest ROM, 3584 bytes (R135). -/
def romMax : Nat := 3584

/-- STACK_CAP (10_state.md R22). -/
def stackCap : Nat := 12

/-- The largest value of I (R18). -/
def indexMax : Nat := 0xFFF

/-- PHOSPHOR_MAX (45_display.md R110). -/
def phosphorMax : Byte := 255

/-- GLYPH_BYTES, the glyph stride of FX29 (42_index_memory.md R93). -/
def glyphBytes : Nat := 5

/-- The font: 16 glyphs of 5 bytes. -/
def fontBytes : Nat := 80

/-- FONT_BASE. -/
def fontBase : Nat := Config.fontBase.val

/-- Byte k of FONT_TABLE, for k below 80. -/
def fontByte (k : Nat) : Byte := if h : k < 80 then Config.fontTable ⟨k, h⟩ else 0

/-- DECAY_STEP, 1 to 255. -/
def decayStep : Nat := Config.decayStepLessOne.val + 1

/-- COLOR_MAP. -/
def colorMap (ch : Fin 4) (p : Byte) : Byte := Config.colorMap ch p

end Sys2Proof.Machine
end

