-- ==== Sys2Proof/Machine/State.lean ====
section
/-! DEFINITION. The state of the core as plain data (10_state.md), the ways a step can stop, and the state after
reset. -/

namespace Sys2Proof.Machine

/-- The kinds of fault of 60_exceptions.md R117, in the order of their codes 1 to 7. -/
inductive FaultKind where
  /-- Code 1: an access at 0x1000 or above. -/
  | memOutOfBounds
  /-- Code 2: a register number outside 0 to 15. Nothing raises it (10_state.md R17). -/
  | invalidRegisterIndex
  /-- Code 3: a write of I above 0xFFF. -/
  | indexOutOfRange
  /-- Code 4: a word of no instruction. -/
  | unknownOpcode
  /-- Code 5: a push with depth 12. -/
  | stackOverflow
  /-- Code 6: a pop with depth 0. -/
  | stackUnderflow
  /-- Code 7: the legacy machine-routine call. -/
  | unsupportedInstruction
  deriving DecidableEq, Repr

/-- What a primitive raises: `raise F(info)` of 00_scope.md R9. -/
structure Raised where
  kind : FaultKind
  info : Option Nat
  deriving DecidableEq, Repr

/-- The fault record of 60_exceptions.md R118. -/
structure FaultRecord where
  kind : FaultKind
  info : Option Nat
  /-- The address the faulting instruction was fetched from. -/
  faultPc : Word
  /-- The fetched word, none if the fetch itself faulted. -/
  word : Option Word
  deriving DecidableEq, Repr

/-- The core's status (10_state.md R30). -/
inductive Status where
  | running
  | halted (r : FaultRecord)
  deriving DecidableEq, Repr

/-- What the host can make the core do (00_scope.md R5, 60_exceptions.md R128). -/
inductive HostStep where
  /-- `cpu_step(rnd)` (30_encoding.md R64). -/
  | cpuStep (rnd : Byte)
  /-- `timer_step` (60_exceptions.md R125). -/
  | timerStep
  /-- `render_step` (45_display.md R113). -/
  | renderStep
  /-- `key_press(k)` (44_keypad.md R101). -/
  | keyPress (k : Key)
  /-- `key_release(k)` (R101). -/
  | keyRelease (k : Key)
  /-- reset and load of a ROM (70_reset_and_hazards.md R134). -/
  | reset (rom : List Byte)
  deriving DecidableEq, Repr

/-- The answer of one poll of the key wait (44_keypad.md R104). -/
inductive PollResult where
  | pending
  | resolved (k : Key)
  deriving DecidableEq, Repr

/-- Memory M (20_memory.md R37) in canonical form: addresses strictly rising, no entry equal to what an unlisted
address reads as (`Memory.wf` says so). -/
abbrev Memory := List Host.Cell

/-- The state of the core (10_state.md), and three fields of the model's own at its end. -/
structure State where
  /-- V0 to VF (R15, R16). -/
  V : Vector Byte 16
  /-- The address register (R18). -/
  I : Addr
  /-- The program counter (R19). -/
  PC : Word
  /-- The return-address stack, the oldest entry first; `depth` is its length (R22). -/
  stack : List Word
  /-- The delay timer (R25). -/
  DT : Byte
  /-- The sound timer (R25). -/
  ST : Byte
  /-- `on[x][y]`, the logical pixels (R26). -/
  lit : Grid Bool
  /-- `phos[x][y]`, the phosphor values (R27). -/
  phos : Grid Byte
  /-- The keys down: bit k is set while key k is down (R29). -/
  pressed : BitVec 16
  /-- The key-wait state (R29). -/
  wait : WaitState
  /-- Running or Halted (R30). -/
  status : Status
  /-- Memory (R32). -/
  M : Memory
  /-- The render buffer, none before the first `render_step` (R33). -/
  rbuf : Option (Vector Byte 8192)
  /-- The model's own: the host's steps still to happen, the next one first (00_scope.md R5; log entry 1). -/
  inputs : List HostStep
  /-- The model's own: the random byte the host sent with the `cpu_step` now running (30_encoding.md R64; log entry 2). -/
  rndIn : Option Byte
  /-- The model's own: how many free values have been taken (log entry 2). -/
  freeCount : Nat
  deriving DecidableEq, Repr

/-- The faults that would end a run outside the state: none. Every fault of 60_exceptions.md R117 is a next state
whose status is Halted, because R118 and R119 describe that state and R133 says what the core still does in it
(log entry 4, safe). -/
inductive Fault where
  deriving DecidableEq, Repr

/-- Why a step has no meaning. -/
inductive Refusal where
  /-- Raised by an arm of `exec` whose instruction has no meaning yet. No arm raises it now. Safe. -/
  | notModelled (mnemonic : String)
  /-- Raised by the host step `reset` for a ROM of more than 3584 bytes: "A longer ROM is refused before the run: the
  core does not start, and a model gives the launch no meaning" (70_reset_and_hazards.md R135). Safe. -/
  | romTooLong (length : Nat)
  deriving DecidableEq, Repr

/-- The state right after reset with an empty ROM (10_state.md R35, 70_reset_and_hazards.md R134). The font is in
what an unlisted address of `M` reads as, so `M` lists nothing. -/
def State.reset : State where
  V := Vector.replicate 16 0
  I := 0
  PC := 0x200
  stack := []
  DT := 0
  ST := 0
  lit := Vector.replicate 64 (Vector.replicate 32 false)
  phos := Vector.replicate 64 (Vector.replicate 32 0)
  pressed := 0
  wait := .idle
  status := .running
  M := []
  rbuf := none
  inputs := []
  rndIn := none
  freeCount := 0

end Sys2Proof.Machine
end

