-- ==== Sys2Proof/Machine/Ops.lean ====
section
/-! DEFINITION. The named operations over the state: registers, address register, memory, fetch, stack, free values,
and taking a fault (00_scope.md R9). -/

namespace Sys2Proof.Machine

/-! ## Grids -/

/-- The cell at column x, row y. -/
def gridCell {α : Type} (g : Grid α) (x : Fin 64) (y : Fin 32) : α := (g.get x).get y

/-- The grid with the cell at column x, row y replaced. -/
def gridSet {α : Type} (g : Grid α) (x : Fin 64) (y : Fin 32) (v : α) : Grid α :=
  Vector.set g x.val ((g.get x).set y.val v)

/-- The grid with value `f x y` in each cell. -/
def gridOf {α : Type} (f : Fin 64 → Fin 32 → α) : Grid α :=
  Vector.ofFn fun x => Vector.ofFn fun y => f x y

/-! ## Writes of one part of the state -/

/-- `V[x] <- v` (10_state.md R15). -/
def State.setReg (s : State) (x : Reg) (v : Byte) : State := { s with V := s.V.set x.toNat v x.isLt }

/-- The address register holds `a`. -/
def State.setI (s : State) (a : Addr) : State := { s with I := a }

/-- `pc <- a` (R19). -/
def State.setPC (s : State) (a : Word) : State := { s with PC := a }

/-- The stack is `l`. -/
def State.setStack (s : State) (l : List Word) : State := { s with stack := l }

/-- `DT <- v` (R25). -/
def State.setDT (s : State) (v : Byte) : State := { s with DT := v }

/-- `ST <- v` (R25). -/
def State.setST (s : State) (v : Byte) : State := { s with ST := v }

/-- The logical pixels are `g`. -/
def State.setLit (s : State) (g : Grid Bool) : State := { s with lit := g }

/-- The phosphor values are `g`. -/
def State.setPhos (s : State) (g : Grid Byte) : State := { s with phos := g }

/-- The key-wait state is `w`. -/
def State.setWait (s : State) (w : WaitState) : State := { s with wait := w }

/-- The keys down are `p`. -/
def State.setPressed (s : State) (p : BitVec 16) : State := { s with pressed := p }

/-- Memory is `m`. -/
def State.setM (s : State) (m : Memory) : State := { s with M := m }

/-- The render buffer is `b`. -/
def State.setRbuf (s : State) (b : Vector Byte 8192) : State := { s with rbuf := some b }

/-- The random byte sent with this `cpu_step` is `r`. -/
def State.setRndIn (s : State) (r : Option Byte) : State := { s with rndIn := r }

/-- The host's steps still to happen are `l`. -/
def State.setInputs (s : State) (l : List HostStep) : State := { s with inputs := l }

/-- One more free value has been taken. -/
def State.countFree (s : State) : State := { s with freeCount := s.freeCount + 1 }

/-! ## Registers -/

/-- The register number of VF (R16). -/
def vf : Reg := 0xF

/-- `V[x]` (R15). -/
def State.reg (s : State) (x : Reg) : Byte := s.V.get x.toFin

/-- A result in V[x] and then a flag in VF, the flag last (41_alu.md R77). -/
def State.setResultThenFlag (s : State) (x : Reg) (result flag : Byte) : State := (s.setReg x result).setReg vf flag

/-- `V[0] .. V[n-1]` as a list of bytes. -/
def State.firstRegs (s : State) (n : Nat) : List Byte := (List.range n).map fun k => s.reg (BitVec.ofNat 4 k)

/-- The bytes of a list into V[k], V[k+1], and so on, in this order. -/
def State.setRegsFrom : Nat → List Byte → State → State
  | _, [], s => s
  | k, v :: vs, s => State.setRegsFrom (k + 1) vs (s.setReg (BitVec.ofNat 4 k) v)

/-! ## Address register -/

/-- `I <- v`, the value computed exactly: above 0xFFF it raises IndexOutOfRange (10_state.md R18). -/
def writeIndex (v : Nat) (s : State) : Except Raised State :=
  if indexMax < v then .error ⟨.indexOutOfRange, some v⟩ else .ok (s.setI (BitVec.ofNat 12 v))

/-! ## Memory -/

/-- What an address that memory does not list reads as: the contents at reset with an empty ROM, which are the font
at FONT_BASE and 0 elsewhere (20_memory.md R44). The font lies below 0x200 (70_reset_and_hazards.md R136), so an
address from there on is 0 without asking where the font is. -/
def Memory.unlisted (a : Nat) : Byte :=
  if romBase ≤ a then 0
  else if fontBase ≤ a ∧ a < fontBase + fontBytes then fontByte (a - fontBase)
  else 0

/-- The canonical form: addresses below 0x1000 and strictly rising, no entry equal to what an unlisted address reads as. -/
def Memory.wf : Memory → Bool
  | [] => true
  | (a, v) :: m => decide (a < memSize) && v != Memory.unlisted a && m.all (fun c => decide (a < c.1)) && Memory.wf m

/-- The byte of memory at an address. -/
def Memory.read : Memory → Nat → Byte
  | [], a => Memory.unlisted a
  | (b, v) :: m, a => if a = b then v else Memory.read m a

/-- An entry in front of a memory, left out where it says what an unlisted address reads as. -/
def Memory.consCell (a : Nat) (v : Byte) (m : Memory) : Memory :=
  if v = Memory.unlisted a then m else (a, v) :: m

/-- The memory with one byte replaced, in canonical form. -/
def Memory.write : Memory → Nat → Byte → Memory
  | [], a, v => Memory.consCell a v []
  | (b, u) :: m, a, v =>
    if a < b then Memory.consCell a v ((b, u) :: m)
    else if a = b then Memory.consCell a v m
    else (b, u) :: Memory.write m a v

/-- The memory whose byte at each address below 0x1000 is `f` of it, in canonical form. -/
@[irreducible] def Memory.ofBytes (f : Nat → Byte) : Memory :=
  (List.range memSize).filterMap fun a => if f a = Memory.unlisted a then none else some (a, f a)

/-- Memory with the bytes of a list at consecutive addresses from `a` on. -/
def Memory.writeList (m : Memory) (a : Nat) : List Byte → Memory
  | [] => m
  | v :: vs => Memory.writeList (Memory.write m a v) (a + 1) vs

/-- `MemRead(addr, 1)` (R38). -/
def memRead (addr : Nat) (s : State) : Except Raised Byte :=
  if memSize ≤ addr then .error ⟨.memOutOfBounds, some addr⟩ else .ok (s.M.read addr)

/-- `MemWrite(addr, 1, v)` (R39). -/
def memWrite (addr : Nat) (v : Byte) (s : State) : Except Raised State :=
  if memSize ≤ addr then .error ⟨.memOutOfBounds, some addr⟩ else .ok (s.setM (s.M.write addr v))

/-- Reads of `n` bytes at rising addresses from `addr` on, the lowest first (R43, R45). -/
def readBytes : Nat → Nat → State → Except Raised (List Byte)
  | _, 0, _ => .ok []
  | addr, n + 1, s =>
    match memRead addr s with
    | .error e => .error e
    | .ok b => (readBytes (addr + 1) n s).map (b :: ·)

/-- Writes of the bytes of a list at rising addresses from `addr` on, the lowest first (R43, R45). -/
def writeBytes : Nat → List Byte → State → Except Raised State
  | _, [], s => .ok s
  | addr, v :: vs, s =>
    match memWrite addr v s with
    | .error e => .error e
    | .ok t => writeBytes (addr + 1) vs t

/-- `Fetch16(addr)`: big-endian, and past the top of memory it raises MemOutOfBounds with the first address outside (R40). -/
def fetch16 (addr : Nat) (s : State) : Except Raised Word :=
  if memSize ≤ addr + 1 then .error ⟨.memOutOfBounds, some (max addr memSize)⟩
  else .ok (wordOfBytes (s.M.read addr) (s.M.read (addr + 1)))

/-! ## Stack -/

/-- `push(v)` (10_state.md R23). -/
def push (v : Word) (s : State) : Except Raised State :=
  if stackCap ≤ s.stack.length then .error ⟨.stackOverflow, none⟩ else .ok (s.setStack (s.stack ++ [v]))

/-- `pop()` (R24): the most recently pushed address, and the state without it. -/
def pop (s : State) : Except Raised (Word × State) :=
  match s.stack.getLast? with
  | none => .error ⟨.stackUnderflow, none⟩
  | some v => .ok (v, s.setStack s.stack.dropLast)

/-! ## The random byte -/

/-- The random byte of this `cpu_step` (30_encoding.md R64, 41_alu.md R89): the one the host sent, or a fresh free value. -/
def randomByte (s : State) : Byte × State :=
  match s.rndIn with
  | some r => (r, s)
  | none => (Config.randomByte s.freeCount, s.countFree)

/-! ## Taking a fault -/

/-- The state with every part that 60_exceptions.md R119 leaves unspecified made unknown. Only `status` and the
host's own side (the steps it has still to issue) stay. -/
def loseAll (s : State) : State :=
  let r := Config.remains s.freeCount
  { V := r.V, I := r.I, PC := r.PC
    stack := r.entries.toList.take r.depth.val
    DT := r.DT, ST := r.ST, lit := r.lit, phos := r.phos
    pressed := r.pressed, wait := r.wait
    status := s.status
    M := Memory.ofBytes r.byteAt
    rbuf := r.rbuf
    inputs := s.inputs, rndIn := none, freeCount := s.freeCount + 1 }

/-- Taking a fault, for every fault of the core: status becomes Halted with the record of R118, everything else is
unknown (R119). There is no return from it: only a reset starts a new run (R122, `resetWith`). -/
def takeFault (e : Raised) (faultPc : Word) (word : Option Word) (s : State) : State :=
  { loseAll s with status := .halted ⟨e.kind, e.info, faultPc, word⟩ }

/-- What `exec` answers when instruction `i` raises `e`. While it executes, PC is the address it was fetched from plus
2, and its word is the fetched one (30_encoding.md R64; log entry 19). -/
def raiseIn (i : Instr) (e : Raised) (s : State) : Host.Outcome State Fault Refusal :=
  .next (takeFault e (s.PC - 2) (some (encode i)) s)

/-- The answer of instruction `i` run in `s`: the state its primitives leave, or the fault they raise (00_scope.md R10). -/
def finish (i : Instr) (s : State) : Except Raised State → Host.Outcome State Fault Refusal
  | .ok t => .next t
  | .error e => raiseIn i e s

end Sys2Proof.Machine
end

