-- ==== Sys2Proof/Machine/Operands.lean ====
section
/-! DEFINITION. The operand forms (30_encoding.md R55) and the effective address (42_index_memory.md R90). -/

namespace Sys2Proof.Machine

/-- NNN as a jump or call target: zext_16(NNN) (R55). -/
def targetOf (nnn : Addr) : Word := nnn.setWidth 16

/-- The target of BNNN: the exact sum of NNN and V0 (40_control_flow.md R71). -/
def offsetTarget (nnn : Addr) (s : State) : Word := nnn.setWidth 16 + (s.reg 0).setWidth 16

/-- The effective address I + k, computed exactly (42_index_memory.md R90, 20_memory.md R45). -/
def effectiveAddr (s : State) (k : Nat) : Nat := s.I.toNat + k

/-- The low nibble of a register, which names a key or a glyph (44_keypad.md R105, 42_index_memory.md R93). -/
def lowNibble (v : Byte) : BitVec 4 := v.extractLsb' 0 4

/-- The address of the glyph that the low nibble of a register selects (R93). -/
def glyphAddr (v : Byte) : Nat := fontBase + (lowNibble v).toNat * glyphBytes

/-- How many registers FX55 and FX65 move: V0 to VX (R95, R96). -/
def rangeCount (x : Reg) : Nat := x.toNat + 1

/-- The decimal digits of a byte: hundreds, tens, units (R94). -/
def bcdDigits (v : Byte) : List Byte :=
  [BitVec.ofNat 8 (v.toNat / 100), BitVec.ofNat 8 (v.toNat / 10 % 10), BitVec.ofNat 8 (v.toNat % 10)]

/-- Whether the key of code k is down (44_keypad.md R101). -/
def keyDown (k : Key) (s : State) : Bool := s.pressed.getLsbD k.toNat

end Sys2Proof.Machine
end

