-- ==== Sys2Proof/Machine/Alu.lean ====
section
/-! DEFINITION. Loads, bitwise operations, arithmetic, shifts and the random byte (41_alu.md). Sources are read
before anything is written, and VF as a flag is written last (R77). -/

namespace Sys2Proof.Machine

/-- 6XNN (R78). -/
def execLdImm (x : Reg) (nn : Byte) (s : State) : Host.Outcome State Fault Refusal := .next (s.setReg x nn)

/-- 7XNN: modulo 256, no flag (R79). -/
def execAddImm (x : Reg) (nn : Byte) (s : State) : Host.Outcome State Fault Refusal := .next (s.setReg x (s.reg x + nn))

/-- 8XY0 (R80). -/
def execLdReg (x y : Reg) (s : State) : Host.Outcome State Fault Refusal := .next (s.setReg x (s.reg y))

/-- 8XY1: VF is not written as a flag (R81). -/
def execOrReg (x y : Reg) (s : State) : Host.Outcome State Fault Refusal := .next (s.setReg x (s.reg x ||| s.reg y))

/-- 8XY2: VF is not written as a flag (R82). -/
def execAndReg (x y : Reg) (s : State) : Host.Outcome State Fault Refusal := .next (s.setReg x (s.reg x &&& s.reg y))

/-- 8XY3: VF is not written as a flag (R83). -/
def execXorReg (x y : Reg) (s : State) : Host.Outcome State Fault Refusal := .next (s.setReg x (s.reg x ^^^ s.reg y))

/-- 8XY4 (R84). -/
def execAddReg (x y : Reg) (s : State) : Host.Outcome State Fault Refusal :=
  .next (s.setResultThenFlag x (s.reg x + s.reg y) (carryFlag (s.reg x) (s.reg y)))

/-- 8XY5 (R85). -/
def execSubReg (x y : Reg) (s : State) : Host.Outcome State Fault Refusal :=
  .next (s.setResultThenFlag x (s.reg x - s.reg y) (noBorrowFlag (s.reg x) (s.reg y)))

/-- 8XY6: the shift is of VX, the field Y is ignored (R86). -/
def execShr (x _y : Reg) (s : State) : Host.Outcome State Fault Refusal :=
  .next (s.setResultThenFlag x (s.reg x >>> 1) (lostRightFlag (s.reg x)))

/-- 8XY7 (R87). -/
def execSubnReg (x y : Reg) (s : State) : Host.Outcome State Fault Refusal :=
  .next (s.setResultThenFlag x (s.reg y - s.reg x) (noBorrowFlag (s.reg y) (s.reg x)))

/-- 8XYE: the shift is of VX, the field Y is ignored (R88). -/
def execShl (x _y : Reg) (s : State) : Host.Outcome State Fault Refusal :=
  .next (s.setResultThenFlag x (s.reg x <<< 1) (lostLeftFlag (s.reg x)))

/-- CXNN (R89). -/
def execRnd (x : Reg) (nn : Byte) (s : State) : Host.Outcome State Fault Refusal :=
  .next ((randomByte s).2.setReg x ((randomByte s).1 &&& nn))

end Sys2Proof.Machine
end

