-- ==== Sys2Proof/Machine/ControlFlow.lean ====
section
/-! DEFINITION. Control flow (40_control_flow.md). On entry PC is the address of the instruction plus 2. -/

namespace Sys2Proof.Machine

/-- A skip steps over one 2-byte word (R66, R72). -/
def skipIf (c : Bool) (s : State) : State := if c then s.setPC (s.PC + 2) else s

/-- 0NNN: always UnsupportedInstruction, with the word as info (R67). -/
def execSys (nnn : Addr) (s : State) : Host.Outcome State Fault Refusal :=
  raiseIn (.sys nnn) ⟨.unsupportedInstruction, some (encode (.sys nnn)).toNat⟩ s

/-- 00EE (R68). -/
def execRet (s : State) : Host.Outcome State Fault Refusal :=
  finish .ret s ((pop s).map fun r => r.2.setPC r.1)

/-- 1NNN (R69). -/
def execJp (nnn : Addr) (s : State) : Host.Outcome State Fault Refusal := .next (s.setPC (targetOf nnn))

/-- 2NNN: the return address pushed is PC, the address of the next instruction (R70). -/
def execCall (nnn : Addr) (s : State) : Host.Outcome State Fault Refusal :=
  finish (.call nnn) s ((push s.PC s).map fun t => t.setPC (targetOf nnn))

/-- BNNN (R71). -/
def execJpV0 (nnn : Addr) (s : State) : Host.Outcome State Fault Refusal := .next (s.setPC (offsetTarget nnn s))

/-- 3XNN (R72). -/
def execSeImm (x : Reg) (nn : Byte) (s : State) : Host.Outcome State Fault Refusal := .next (skipIf (s.reg x == nn) s)

/-- 4XNN (R73). -/
def execSneImm (x : Reg) (nn : Byte) (s : State) : Host.Outcome State Fault Refusal := .next (skipIf (s.reg x != nn) s)

/-- 5XY0 (R74). -/
def execSeReg (x y : Reg) (s : State) : Host.Outcome State Fault Refusal := .next (skipIf (s.reg x == s.reg y) s)

/-- 9XY0 (R75). -/
def execSneReg (x y : Reg) (s : State) : Host.Outcome State Fault Refusal := .next (skipIf (s.reg x != s.reg y) s)

end Sys2Proof.Machine
end

