-- ==== Sys2Proof/Machine/Display.lean ====
section
/-! DEFINITION. The sprite blitter and the drawing instructions (45_display.md R109 to R112). -/

namespace Sys2Proof.Machine

/-- What a blit works on: the logical pixels, the phosphor values, the collision accumulator (R110). -/
structure Blit where
  lit : Grid Bool
  phos : Grid Byte
  coll : Bool
  deriving DecidableEq, Repr

/-- Bit of column offset c in a sprite row byte: bit 7 is c = 0 (R109). -/
def spriteBit (row : Byte) (c : Nat) : Bool := row.getLsbD (7 - c)

/-- A set sprite bit at a pixel: toggle it, note a collision if it was on, set its phosphor if it is on now (R110). -/
def togglePixel (px : Fin 64) (py : Fin 32) (d : Blit) : Blit :=
  let was := gridCell d.lit px py
  { lit := gridSet d.lit px py (!was)
    phos := if was then d.phos else gridSet d.phos px py phosphorMax
    coll := d.coll || was }

/-- Columns c, c + 1, ..., 7 of sprite row r, `k` of them, with wrap-around (R110). -/
def drawColumns (x y : Byte) (r : Nat) (row : Byte) : Nat → Nat → Blit → Blit
  | _, 0, d => d
  | c, k + 1, d =>
    drawColumns x y r row (c + 1) k
      (if spriteBit row c then togglePixel (Fin.ofNat 64 (x.toNat + c)) (Fin.ofNat 32 (y.toNat + r)) d else d)

/-- The rows of a sprite, the first of them row r (R110). -/
def drawRows (x y : Byte) : Nat → List Byte → Blit → Blit
  | _, [], d => d
  | r, row :: rows, d => drawRows x y (r + 1) rows (drawColumns x y r row 0 8 d)

/-- `draw(x, y, rows)` (R110). -/
def draw (x y : Byte) (rows : List Byte) (s : State) : Blit := drawRows x y 0 rows ⟨s.lit, s.phos, false⟩

/-- 00E0: every logical pixel off, phosphor kept (R111). -/
def execCls (s : State) : Host.Outcome State Fault Refusal := .next (s.setLit (gridOf fun _ _ => false))

/-- What a finished blit leaves: the display, then the collision flag in VF (R112). -/
def State.afterBlit (s : State) (d : Blit) : State := ((s.setLit d.lit).setPhos d.phos).setReg vf (collisionFlag d.coll)

/-- DXYN: all row bytes are read before any pixel changes, and VF is always written (R112). -/
def execDrw (x y : Reg) (n : BitVec 4) (s : State) : Host.Outcome State Fault Refusal :=
  finish (.drw x y n) s
    ((readBytes (effectiveAddr s 0) n.toNat s).map fun rows => s.afterBlit (draw (s.reg x) (s.reg y) rows s))

end Sys2Proof.Machine
end

