-- ==== Sys2Proof/Machine/IndexMemory.lean ====
section
/-! DEFINITION. The address register, BCD, and the range store and load (42_index_memory.md). -/

namespace Sys2Proof.Machine

/-- ANNN (R91). -/
def execLdI (nnn : Addr) (s : State) : Host.Outcome State Fault Refusal := .next (s.setI nnn)

/-- FX1E: the exact sum, IndexOutOfRange above 0xFFF, VF not written (R92). -/
def execAddI (x : Reg) (s : State) : Host.Outcome State Fault Refusal :=
  finish (.addI x) s (writeIndex (s.I.toNat + (s.reg x).toNat) s)

/-- FX29 (R93). FONT_BASE + 80 ≤ 0x200 keeps the address below 0x200, so the range check of I always passes (R93, R136;
log entry 24). -/
def execLdF (x : Reg) (s : State) : Host.Outcome State Fault Refusal :=
  .next (s.setI (BitVec.ofNat 12 (glyphAddr (s.reg x))))

/-- FX33: three digits at I, I + 1, I + 2; I is kept (R94). -/
def execLdB (x : Reg) (s : State) : Host.Outcome State Fault Refusal :=
  finish (.ldB x) s (writeBytes (effectiveAddr s 0) (bcdDigits (s.reg x)) s)

/-- FX55: V0 to VX at I, I + 1, and so on; I is kept (R95). -/
def execStRegs (x : Reg) (s : State) : Host.Outcome State Fault Refusal :=
  finish (.stRegs x) s (writeBytes (effectiveAddr s 0) (s.firstRegs (rangeCount x)) s)

/-- FX65: V0 to VX from I, I + 1, and so on; I is kept (R96). -/
def execLdRegs (x : Reg) (s : State) : Host.Outcome State Fault Refusal :=
  finish (.ldRegs x) s ((readBytes (effectiveAddr s 0) (rangeCount x) s).map fun bs => State.setRegsFrom 0 bs s)

end Sys2Proof.Machine
end

