-- ==== Sys2Proof/Machine/Keypad.lean ====
section
/-! DEFINITION. The key-wait machine and the keypad instructions (44_keypad.md). -/

namespace Sys2Proof.Machine

/-- The smallest code of a key that is down, none when no key is (R104, `min(pressed)`). -/
def smallestKey (pressed : BitVec 16) : Option Key :=
  ((List.range 16).find? fun k => pressed.getLsbD k).map fun k => BitVec.ofNat 4 k

/-- Idle and AwaitingPress poll alike: arm the wait, and capture the smallest key that is down (R104 rows 1 to 4). -/
def pollCapture (s : State) : State :=
  match smallestKey s.pressed with
  | none => s.setWait .awaitingPress
  | some k => s.setWait (.awaitingRelease k)

/-- `poll()`, one advance of the key-wait machine under the release policy (R103, R104). -/
def poll (s : State) : State × PollResult :=
  match s.wait with
  | .idle => (pollCapture s, .pending)
  | .awaitingPress => (pollCapture s, .pending)
  | .awaitingRelease k => if keyDown k s then (s, .pending) else (s.setWait .idle, .resolved k)

/-- EX9E (R105). -/
def execSkp (x : Reg) (s : State) : Host.Outcome State Fault Refusal :=
  .next (skipIf (keyDown (lowNibble (s.reg x)) s) s)

/-- EXA1 (R106). -/
def execSknp (x : Reg) (s : State) : Host.Outcome State Fault Refusal :=
  .next (skipIf (!keyDown (lowNibble (s.reg x)) s) s)

/-- FX0A: pending rewinds PC to the instruction's own address, resolved writes the key code (R107). -/
def execLdVxK (x : Reg) (s : State) : Host.Outcome State Fault Refusal :=
  match poll s with
  | (t, .pending) => .next (t.setPC (t.PC - 2))
  | (t, .resolved k) => .next (t.setReg x (k.setWidth 8))

end Sys2Proof.Machine
end

