-- ==== Sys2Proof/Machine/Timers.lean ====
section
/-! DEFINITION. The timer instructions (43_timers.md). -/

namespace Sys2Proof.Machine

/-- FX07 (R97). -/
def execLdVxDt (x : Reg) (s : State) : Host.Outcome State Fault Refusal := .next (s.setReg x s.DT)

/-- FX15 (R98). -/
def execLdDtVx (x : Reg) (s : State) : Host.Outcome State Fault Refusal := .next (s.setDT (s.reg x))

/-- FX18 (R99). -/
def execLdStVx (x : Reg) (s : State) : Host.Outcome State Fault Refusal := .next (s.setST (s.reg x))

end Sys2Proof.Machine
end

