-- ==== Sys2Proof/Machine/Cycle.lean ====
section
/-! DEFINITION. The instruction cycle (30_encoding.md R64, R65). -/

namespace Sys2Proof.Machine

/-- The state in which a fetched instruction executes: PC is past it, and the step's random byte is at hand (R64). -/
def fetched (rnd : Option Byte) (s : State) : State := (s.setPC (s.PC + 2)).setRndIn rnd

/-- `execute(decode(w))`, where an illegal word raises UnknownOpcode (R57, R64). `a` is where `w` was fetched. -/
def decodeAndExecute (a w : Word) (s : State) : Host.Outcome State Fault Refusal :=
  match decode w with
  | .ok i => exec i s
  | .error _ => .next (takeFault ⟨.unknownOpcode, some w.toNat⟩ a (some w) s)

/-- `cpu_step(rnd)` (R64). `none` stands for a step whose random byte the host did not name (log entry 2). -/
def cpuStep (rnd : Option Byte) (s : State) : Host.Outcome State Fault Refusal :=
  match s.status with
  | .halted _ => .next s
  | .running =>
    match fetch16 s.PC.toNat s with
    | .error e => .next (takeFault e s.PC none s)
    | .ok w => decodeAndExecute s.PC w (fetched rnd s)

end Sys2Proof.Machine
end

