-- ==== Sys2Proof/Machine/HostSteps.lean ====
section
/-! DEFINITION. The core's other steps, the reset, and what the host reads (60_exceptions.md R125 to R128). -/

namespace Sys2Proof.Machine

/-- One count down, floored at 0 (60_exceptions.md R125). -/
def countDown (t : Byte) : Byte := if t = 0 then 0 else t - 1

/-- `timer_step`: both timers in one atomic step (R125). -/
def timerStep (s : State) : State := (s.setDT (countDown s.DT)).setST (countDown s.ST)

/-- `key_press(k)` (44_keypad.md R101). -/
def keyPress (k : Key) (s : State) : State := s.setPressed (s.pressed ||| BitVec.twoPow 16 k.toNat)

/-- `key_release(k)` (R101). -/
def keyRelease (k : Key) (s : State) : State := s.setPressed (s.pressed &&& ~~~BitVec.twoPow 16 k.toNat)

/-- Decay of one pixel in one render: only while it is off, by DECAY_STEP, floored at 0 (45_display.md R113). -/
def decayPixel (on : Bool) (p : Byte) : Byte := if on then p else BitVec.ofNat 8 (p.toNat - decayStep)

/-- The phosphor values after the decay of one render (R113). -/
def decayed (s : State) : Grid Byte := gridOf fun x y => decayPixel (gridCell s.lit x y) (gridCell s.phos x y)

/-- The render buffer of a phosphor grid: channel ch of pixel (x, y) is byte (y * 64 + x) * 4 + ch (R113, R114). -/
@[irreducible] def renderBuffer (phos : Grid Byte) : Vector Byte 8192 :=
  Vector.ofFn fun j =>
    colorMap (Fin.ofNat 4 j.val) (gridCell phos (Fin.ofNat 64 (j.val / 4)) (Fin.ofNat 32 (j.val / 256)))

/-- `render_step`: decay, then map (R113). -/
def renderStep (s : State) : State := (s.setPhos (decayed s)).setRbuf (renderBuffer (decayed s))

/-- Reset with a ROM (70_reset_and_hazards.md R134). A ROM of more than 3584 bytes is refused (R135). The host's steps
still to happen and the count of free values taken are no state of the core and go on. -/
def resetWith (rom : List Byte) (s : State) : Host.Outcome State Fault Refusal :=
  if romMax < rom.length then .refused (.romTooLong rom.length)
  else .next { State.reset with
    M := Memory.writeList [] romBase rom, inputs := s.inputs, freeCount := s.freeCount }

/-- One step of the core that the host issues (00_scope.md R5, 60_exceptions.md R128). The steps other than
`cpu_step` do not look at the status (R133). -/
def hostStep (h : HostStep) (s : State) : Host.Outcome State Fault Refusal :=
  match h with
  | .cpuStep rnd => cpuStep (some rnd) s
  | .timerStep => .next (timerStep s)
  | .renderStep => .next (renderStep s)
  | .keyPress k => .next (keyPress k s)
  | .keyRelease k => .next (keyRelease k s)
  | .reset rom => resetWith rom s

/-- The sound output, the value of ST (60_exceptions.md R127). -/
def soundOutput (s : State) : Byte := s.ST

/-- The frame snapshot the host takes: the render buffer, none before the first render (10_state.md R33). DESIGN CHOICE:
R128 says "an immutable copy of `rbuf` or of the frame", and 91_not_in_source.md N23 says that the source leaves open
whether it is `rbuf`, `on` or `phos`, and when it is taken. The model takes `rbuf`, at any state (log entry 27, unsafe). -/
def frameOutput (s : State) : Option (Vector Byte 8192) := s.rbuf

/-- The numeric code of a fault kind (R117). -/
def faultCode : FaultKind → Nat
  | .memOutOfBounds => 1
  | .invalidRegisterIndex => 2
  | .indexOutOfRange => 3
  | .unknownOpcode => 4
  | .stackOverflow => 5
  | .stackUnderflow => 6
  | .unsupportedInstruction => 7

/-- Where a program's word can be fetched: PC itself, or the entry point when PC is not fetchable (20_memory.md R40). -/
def fetchAddr (s : State) : Word := if memSize ≤ s.PC.toNat + 1 then 0x200 else s.PC

/-- Memory with the two bytes of a word at an address, big-endian (R41). -/
def Memory.writeWord (m : Memory) (a : Nat) (w : Word) : Memory := Memory.writeList m a [highByte w, lowByte w]

/-- The state in which the very next step fetches and runs word `w`: `w` at PC, a running core, and no host step
before it (log entry 13). -/
def placeWord (w : Word) (s : State) : State :=
  { s with PC := fetchAddr s, M := Memory.writeWord s.M (fetchAddr s).toNat w, status := .running, inputs := [] }

end Sys2Proof.Machine
end

