-- ==== Sys2Proof/Machine/Step.lean ====
section
/-! DEFINITION. One step of the core: the next step the host issues, a `cpu_step` where it has named none. -/

namespace Sys2Proof.Machine

/-- One atomic step (00_scope.md R5; log entry 1). -/
def step (s : State) : Host.Outcome State Fault Refusal :=
  match s.inputs with
  | [] => cpuStep none s
  | h :: rest => hostStep h (s.setInputs rest)

/-- `s` with an instruction of the table's numbering stored where `step` fetches its next instruction. -/
def State.withFetchWord (s : State) (nbits w : Nat) : State := placeWord (BitVec.ofNat 16 (w % 2 ^ nbits)) s

end Sys2Proof.Machine
end

