-- ==== Sys2Proof/Safety.lean ====
section
/-! DEFINITION. The terms claims use: a running core, a safe run, the legal states, and what a step may change. -/

namespace Sys2Proof.Machine

/-- The core is Running: the premise every claim about anything but `status` needs (60_exceptions.md R119). -/
def State.isRunning (s : State) : Prop := s.status = .running

/-- A safe step ends in a state of a running core: no fault was raised (60_exceptions.md R119). -/
def safeStep (s : State) : Prop := ∃ t, step s = .next t ∧ t.isRunning

/-- A run of n safe steps (70_reset_and_hazards.md R138, the first kind of claim). -/
def safeRun : Nat → State → Prop
  | 0, s => s.isRunning
  | n + 1, s => ∃ t, step s = .next t ∧ t.isRunning ∧ safeRun n t

/-- The states whose data have the form the spec gives them: memory in its canonical form, and at most 12 return
addresses on the stack (10_state.md R22). -/
def State.legal (s : State) : Prop := Memory.wf s.M = true ∧ s.stack.length ≤ 12

/-- 10_state.md R28, of a running core (after a fault nothing is known of the display, 60_exceptions.md R119). -/
def State.onPixelsGlow (s : State) : Prop :=
  s.isRunning → ∀ x y, gridCell s.lit x y = true → gridCell s.phos x y = 255

/-- 44_keypad.md R108, invariant 2, of a running core: while a key wait is pending, PC is at an FX0A word. -/
def State.waitIsAtItsInstruction (s : State) : Prop :=
  s.isRunning → s.wait ≠ .idle → ∃ w x, fetch16 s.PC.toNat s = .ok w ∧ decode w = .ok (.ldVxK x)

/-- 10_state.md R21 and 40_control_flow.md R68, of a running core: PC is at most 0x10FE, and every return address lies
in 0x002 to 0x1000. -/
def State.pcInRange (s : State) : Prop :=
  s.isRunning → s.PC.toNat ≤ 0x10FE ∧ ∀ v ∈ s.stack, 2 ≤ v.toNat ∧ v.toNat ≤ 0x1000

/-- The reset values of every part of the state but memory (10_state.md R35). -/
def State.hasResetValues (s : State) : Prop :=
  (∀ x, s.reg x = 0) ∧ s.I = 0 ∧ s.PC = 0x200 ∧ s.stack = [] ∧ s.DT = 0 ∧ s.ST = 0 ∧
  (∀ x y, gridCell s.lit x y = false) ∧ (∀ x y, gridCell s.phos x y = 0) ∧ s.pressed = 0 ∧ s.wait = .idle ∧
  s.isRunning ∧ s.rbuf = none

/-- What may change: the registers and the byte addresses for which it holds, and the parts that are `True`. -/
structure Changes where
  regs : Reg → Prop := fun _ => False
  mem : Nat → Prop := fun _ => False
  I : Prop := False
  PC : Prop := False
  stack : Prop := False
  DT : Prop := False
  ST : Prop := False
  lit : Prop := False
  phos : Prop := False
  pressed : Prop := False
  wait : Prop := False
  rbuf : Prop := False

/-- Every part of the core's state that `c` does not name is in `t` what it was in `s`: every register, every byte of
memory, I, PC, stack, timers, display, latch, status, render buffer; and the host's steps to come. -/
def Frame (c : Changes) (s t : State) : Prop :=
  (∀ r, c.regs r ∨ t.reg r = s.reg r) ∧ (∀ a, c.mem a ∨ t.M.read a = s.M.read a) ∧
  (c.I ∨ t.I = s.I) ∧ (c.PC ∨ t.PC = s.PC) ∧ (c.stack ∨ t.stack = s.stack) ∧
  (c.DT ∨ t.DT = s.DT) ∧ (c.ST ∨ t.ST = s.ST) ∧
  (c.lit ∨ ∀ x y, gridCell t.lit x y = gridCell s.lit x y) ∧
  (c.phos ∨ ∀ x y, gridCell t.phos x y = gridCell s.phos x y) ∧
  (c.pressed ∨ t.pressed = s.pressed) ∧ (c.wait ∨ t.wait = s.wait) ∧ t.status = s.status ∧
  (c.rbuf ∨ t.rbuf = s.rbuf) ∧ t.inputs = s.inputs

/-- Instruction `i` answers a next state that satisfies `p`. -/
def Completes (i : Instr) (s : State) (p : State → Prop) : Prop := ∃ t, exec i s = .next t ∧ p t

/-- Instruction `i` raises a fault: the core is Halted with the record of 60_exceptions.md R118, whose fault_pc is the
address the instruction was fetched from (PC is 2 past it while it executes) and whose word is the instruction's. -/
def Halts (i : Instr) (s : State) (kind : FaultKind) (info : Option Nat) : Prop :=
  ∃ t, exec i s = .next t ∧ t.status = .halted ⟨kind, info, s.PC - 2, some (encode i)⟩ ∧ t.inputs = s.inputs

/-- The word of an instruction of format NNN (30_encoding.md R54), as a number. -/
def WordNNN (i : Instr) (c : Nat) (nnn : Addr) : Prop := (encode i).toNat = c * 4096 + nnn.toNat

/-- The word of an instruction of format XNN, or X with NN its sub-opcode (R54), as a number. -/
def WordXNN (i : Instr) (c : Nat) (x : Reg) (nn : Nat) : Prop := (encode i).toNat = c * 4096 + x.toNat * 256 + nn

/-- The word of an instruction of format XYN, or XY with N its sub-opcode (R54), as a number. -/
def WordXYN (i : Instr) (c : Nat) (x y : Reg) (n : Nat) : Prop :=
  (encode i).toNat = c * 4096 + x.toNat * 256 + y.toNat * 16 + n

/-- A set bit of the sprite whose rows lie at I, I + 1, ... of `s`, drawn from column `x`, row `y`, falls on pixel
(px, py): row r, column offset c, with wrap-around (45_display.md R109, R110). -/
def SpriteHits (s : State) (x y : Byte) (n : Nat) (px : Fin 64) (py : Fin 32) : Prop :=
  ∃ r, r < n ∧ ∃ c, c < 8 ∧ (s.M.read (s.I.toNat + r)).toNat / 2 ^ (7 - c) % 2 = 1 ∧
    (x.toNat + c) % 64 = px.val ∧ (y.toNat + r) % 32 = py.val

end Sys2Proof.Machine
end

