-- ==== Sys2Proof/Certificates/Slice0/Obligations.lean ====
section
/-! DEFINITION. The statements for the provers. Every statement about an instruction speaks of `exec`, in which PC is
already the address of the instruction plus 2 (30_encoding.md R64). `Completes`, `Halts`, `Frame` and the word formats
are in Sys2Proof/Safety.lean. -/

open Sys2Proof Sys2Proof.Machine

/-! ## Encoding -/

/-- Words written out from the bit patterns of R56, one or more of each format, decode to the instruction of their row. -/
def Obligations.SampleWordsDecodeAsTheTableSays : Prop :=
  decode 0b0000000011100000#16 = .ok .cls ∧ decode 0b0000000011101110#16 = .ok .ret ∧
  decode 0b0000000100100011#16 = .ok (.sys 0x123) ∧ decode 0b0010001100000000#16 = .ok (.call 0x300) ∧
  decode 0b0011001101000010#16 = .ok (.seImm 3 0x42) ∧ decode 0b1000000100100100#16 = .ok (.addReg 1 2) ∧
  decode 0b1101000000010101#16 = .ok (.drw 0 1 5) ∧ decode 0b1110000110011110#16 = .ok (.skp 1) ∧
  decode 0b1111001100001010#16 = .ok (.ldVxK 3) ∧ decode 0b1111001001100101#16 = .ok (.ldRegs 2) ∧
  decode 0b1010001011110000#16 = .ok (.ldI 0x2F0) ∧ decode 0b1111010100010101#16 = .ok (.ldDtVx 5) ∧
  decode 0b0101000100100001#16 = .error (.unknownOpcode 0x5121)

/-- Decoding the word, and the two bytes in memory order, of any well-formed instruction gives it back. -/
def Obligations.DecodeOfEncodeIsTheInstruction : Prop :=
  ∀ i : Instr, i.wellFormed = true →
    decode (encode i) = .ok i ∧ ∀ rest, decodeBytes (encodeBytes i ++ rest) = .ok (i, rest)

/-- Every word has one meaning: an instruction a word decodes to is well formed and encodes to that very word. -/
def Obligations.EncodeOfDecodeIsTheWord : Prop :=
  ∀ (w : Word) (i : Instr), decode w = .ok i → i.wellFormed = true ∧ encode i = w

/-- The illegal words are exactly those of the table of R58, and decode is total. -/
def Obligations.IllegalWordsAreExactlyTheTable : Prop :=
  ∀ w : Word,
    ((∃ i, decode w = .ok i) ∨ decode w = .error (.unknownOpcode w)) ∧
    (decode w = .error (.unknownOpcode w) ↔
      (w.toNat / 4096 = 5 ∧ w.toNat % 16 ≠ 0) ∨
      (w.toNat / 4096 = 8 ∧ w.toNat % 16 ∈ [8, 9, 0xA, 0xB, 0xC, 0xD, 0xF]) ∨
      (w.toNat / 4096 = 9 ∧ w.toNat % 16 ≠ 0) ∨
      (w.toNat / 4096 = 0xE ∧ w.toNat % 256 ∉ [0x9E, 0xA1]) ∨
      (w.toNat / 4096 = 0xF ∧
        w.toNat % 256 ∉ [0x07, 0x0A, 0x15, 0x18, 0x1E, 0x29, 0x33, 0x55, 0x65]))

/-- A word that decodes matches its own row of the opcode table, and no other row: no two rows overlap, where row
0NNN leaves out 00E0 and 00EE. -/
def Obligations.EachWordMatchesOneTableRow : Prop :=
  ∀ (w : Word) (i : Instr), decode w = .ok i →
    w &&& opcodeMask i = opcodeMatch i ∧
    ∀ j : Instr, w &&& opcodeMask j = opcodeMatch j → (opcodeMatch j = 0 → w ≠ 0x00E0 ∧ w ≠ 0x00EE) →
      opcodeMask j = opcodeMask i ∧ opcodeMatch j = opcodeMatch i

/-! ## The instruction cycle, faults, and the halted core -/

/-- When the two bytes at PC of a running core decode to an instruction, a `cpu_step` runs it with PC past it, and
with the random byte the host sent, if it sent one. -/
def Obligations.StepRunsTheDecodedInstruction : Prop :=
  ∀ (s : State) (i : Instr), s.isRunning → s.PC.toNat + 1 ≤ 0xFFF →
    decodeBytes [s.M.read s.PC.toNat, s.M.read (s.PC.toNat + 1)] = .ok (i, []) →
    (s.inputs = [] → step s = exec i ((s.setPC (s.PC + 2)).setRndIn none)) ∧
    (∀ r rest, s.inputs = .cpuStep r :: rest →
      step s = exec i (((s.setInputs rest).setPC (s.PC + 2)).setRndIn (some r)))

/-- A step is the host's next step; where the host has named none it is a `cpu_step`. The list of host steps in the
state is the model's own choice (log entry 1), so this is how the statements about `cpuStep` and `hostStep` reach a run. -/
def Obligations.StepTakesTheHostsNextStep : Prop :=
  ∀ s : State, (s.inputs = [] → step s = cpuStep none s) ∧
    (∀ h rest, s.inputs = h :: rest → step s = hostStep h (s.setInputs rest)) ∧
    (∀ r, hostStep (.cpuStep r) s = cpuStep (some r) s)

/-- An illegal word at PC halts the core with UnknownOpcode, the word, and the address it was fetched from. -/
def Obligations.IllegalWordHaltsTheCore : Prop :=
  ∀ (s : State) (w : Word) (rnd : Option Byte), s.isRunning → s.PC.toNat + 1 ≤ 0xFFF →
    w.toNat = (s.M.read s.PC.toNat).toNat * 256 + (s.M.read (s.PC.toNat + 1)).toNat →
    decode w = .error (.unknownOpcode w) →
    ∃ t, cpuStep rnd s = .next t ∧ t.status = .halted ⟨.unknownOpcode, some w.toNat, s.PC, some w⟩

/-- R40: the fetch is big-endian below the top of memory, and from 0xFFF on it raises MemOutOfBounds with
max(addr, 0x1000). R64, R118: a `cpu_step` that fetches there halts with fault_pc = PC and no word. -/
def Obligations.FetchReadsBigEndianOrFaults : Prop :=
  (∀ (s : State) (addr : Nat), addr + 1 ≤ 0xFFF →
    ∃ w, fetch16 addr s = .ok w ∧ w.toNat = (s.M.read addr).toNat * 256 + (s.M.read (addr + 1)).toNat) ∧
  (∀ (s : State) (addr : Nat), addr + 1 > 0xFFF →
    fetch16 addr s = .error ⟨.memOutOfBounds, some (max addr 0x1000)⟩) ∧
  (∀ (s : State) (rnd : Option Byte), s.isRunning → 0xFFF ≤ s.PC.toNat →
    ∃ t, cpuStep rnd s = .next t ∧
      t.status = .halted ⟨.memOutOfBounds, some (max s.PC.toNat 0x1000), s.PC, none⟩)

/-- R133: on a halted core a `cpu_step` changes nothing and the other steps stay defined. R30, R122: through every step
but a reset it stays Halted, with the same record. R122, R134: a reset with a ROM that fits starts a running core; that
it may come in any state is the model's choice (log entry 15). -/
def Obligations.HaltedCoreStaysHaltedUntilReset : Prop :=
  ∀ (s : State) (r : FaultRecord), s.status = .halted r →
    (∀ rnd, cpuStep rnd s = .next s) ∧
    (∀ h, (∀ rom, h ≠ .reset rom) → ∃ t, hostStep h s = .next t ∧ t.status = .halted r) ∧
    (∀ rom, rom.length ≤ 3584 → ∃ t, hostStep (.reset rom) s = .next t ∧ t.isRunning)

/-- Execution raises at most one kind of fault per instruction (R120), only where that instruction's rule says, and the
record names the instruction: its address, its word, and the info of R117. -/
def Obligations.EachInstructionRaisesOnlyItsOwnFault : Prop :=
  ∀ (i : Instr) (s t : State) (r : FaultRecord), s.isRunning → exec i s = .next t → t.status = .halted r →
    r.faultPc = s.PC - 2 ∧ r.word = some (encode i) ∧
    match i with
    | .sys _ => r.kind = .unsupportedInstruction ∧ r.info = some (encode i).toNat
    | .ret => r.kind = .stackUnderflow ∧ r.info = none ∧ s.stack = []
    | .call _ => r.kind = .stackOverflow ∧ r.info = none ∧ 12 ≤ s.stack.length
    | .addI x => r.kind = .indexOutOfRange ∧ r.info = some (s.I.toNat + (s.reg x).toNat) ∧
        0xFFF < s.I.toNat + (s.reg x).toNat
    | .drw _ _ n => r.kind = .memOutOfBounds ∧ r.info = some 0x1000 ∧ 1 ≤ n.toNat ∧ 0xFFF < s.I.toNat + n.toNat - 1
    | .ldB _ => r.kind = .memOutOfBounds ∧ r.info = some 0x1000 ∧ 0xFFF < s.I.toNat + 2
    | .stRegs x => r.kind = .memOutOfBounds ∧ r.info = some 0x1000 ∧ 0xFFF < s.I.toNat + x.toNat
    | .ldRegs x => r.kind = .memOutOfBounds ∧ r.info = some 0x1000 ∧ 0xFFF < s.I.toNat + x.toNat
    | _ => False

/-- Every instruction answers a next state in every state; a step answers a next state except for the reset with a
ROM of more than 3584 bytes, which is refused by name. -/
def Obligations.OnlyAnOversizeRomIsRefused : Prop :=
  (∀ (i : Instr) (s : State), ∃ t, exec i s = .next t) ∧
  (∀ s : State, (∀ rom rest, s.inputs = .reset rom :: rest → rom.length ≤ 3584) → ∃ t, step s = .next t) ∧
  (∀ (s : State) rom rest, s.inputs = .reset rom :: rest → 3584 < rom.length →
    step s = .refused (.romTooLong rom.length))

/-! ## Control flow -/

/-- R67: 0NNN, with NNN not 0E0 or 0EE, always halts with UnsupportedInstruction and the word. -/
def Obligations.SysHaltsAsUnsupported : Prop :=
  ∀ (nnn : Addr) (s : State), nnn ≠ 0x0E0 → nnn ≠ 0x0EE →
    WordNNN (.sys nnn) 0 nnn ∧ decode (encode (.sys nnn)) = .ok (.sys nnn) ∧
    Halts (.sys nnn) s .unsupportedInstruction (some nnn.toNat)

/-- R68: 00EE sets PC to the most recently pushed address and removes it; with an empty stack it halts. -/
def Obligations.RetPopsTheReturnAddress : Prop :=
  encode .ret = 0x00EE ∧
  (∀ (s : State) (l : List Word) (v : Word), s.stack = l ++ [v] →
    Completes .ret s fun t => t.PC = v ∧ t.stack = l ∧ Frame { PC := True, stack := True } s t) ∧
  (∀ s : State, s.stack = [] → Halts .ret s .stackUnderflow none)

/-- R70: 2NNN pushes PC, which is the address of the next instruction, and jumps; with 12 entries it halts. -/
def Obligations.CallPushesTheReturnAddress : Prop :=
  ∀ (nnn : Addr) (s : State), WordNNN (.call nnn) 2 nnn ∧
    (s.stack.length < 12 →
      Completes (.call nnn) s fun t => t.stack = s.stack ++ [s.PC] ∧ t.PC.toNat = nnn.toNat ∧
        Frame { PC := True, stack := True } s t) ∧
    (12 ≤ s.stack.length → Halts (.call nnn) s .stackOverflow none)

/-- A call and then a return, with room on the stack, come back to the instruction after the call with the stack as
it was, whatever ran the two fetches in between (S9, the stack round trip). -/
def Obligations.CallThenRetComesBack : Prop :=
  ∀ (nnn : Addr) (s t : State), s.stack.length < 12 → exec (.call nnn) s = .next t →
    ∀ pc, Completes .ret (t.setPC pc) fun u =>
      u.PC = s.PC ∧ u.stack = s.stack ∧ Frame { PC := True } s u

/-- R69, R71: 1NNN sets PC to NNN, BNNN to the exact sum of NNN and V0, not reduced to 12 bits. -/
def Obligations.JumpsSetThePc : Prop :=
  ∀ (nnn : Addr) (s : State),
    (WordNNN (.jp nnn) 1 nnn ∧
      Completes (.jp nnn) s fun t => t.PC.toNat = nnn.toNat ∧ Frame { PC := True } s t) ∧
    (WordNNN (.jpV0 nnn) 0xB nnn ∧
      Completes (.jpV0 nnn) s fun t => t.PC.toNat = nnn.toNat + (s.reg 0).toNat ∧ Frame { PC := True } s t)

/-- R72 to R75: each skip adds 2 to PC exactly when its condition holds, and changes nothing else. -/
def Obligations.SkipsCompareAndStepOverOneWord : Prop :=
  ∀ (x y : Reg) (nn : Byte) (s : State),
    (WordXNN (.seImm x nn) 3 x nn.toNat ∧ Completes (.seImm x nn) s fun t =>
      (s.reg x = nn → t.PC = s.PC + 2) ∧ (s.reg x ≠ nn → t.PC = s.PC) ∧ Frame { PC := True } s t) ∧
    (WordXNN (.sneImm x nn) 4 x nn.toNat ∧ Completes (.sneImm x nn) s fun t =>
      (s.reg x ≠ nn → t.PC = s.PC + 2) ∧ (s.reg x = nn → t.PC = s.PC) ∧ Frame { PC := True } s t) ∧
    (WordXYN (.seReg x y) 5 x y 0 ∧ Completes (.seReg x y) s fun t =>
      (s.reg x = s.reg y → t.PC = s.PC + 2) ∧ (s.reg x ≠ s.reg y → t.PC = s.PC) ∧ Frame { PC := True } s t) ∧
    (WordXYN (.sneReg x y) 9 x y 0 ∧ Completes (.sneReg x y) s fun t =>
      (s.reg x ≠ s.reg y → t.PC = s.PC + 2) ∧ (s.reg x = s.reg y → t.PC = s.PC) ∧ Frame { PC := True } s t)

/-! ## ALU -/

/-- R78, R79, R80: 6XNN and 8XY0 write VX, 7XNN adds modulo 256 without a flag; only VX changes. -/
def Obligations.LoadsAndAddImmediateWriteOnlyVx : Prop :=
  ∀ (x y : Reg) (nn : Byte) (s : State),
    (WordXNN (.ldImm x nn) 6 x nn.toNat ∧ Completes (.ldImm x nn) s fun t =>
      t.reg x = nn ∧ Frame { regs := (· = x) } s t) ∧
    (WordXNN (.addImm x nn) 7 x nn.toNat ∧ Completes (.addImm x nn) s fun t =>
      (t.reg x).toNat = ((s.reg x).toNat + nn.toNat) % 256 ∧ Frame { regs := (· = x) } s t) ∧
    (WordXYN (.ldReg x y) 8 x y 0 ∧ Completes (.ldReg x y) s fun t =>
      t.reg x = s.reg y ∧ Frame { regs := (· = x) } s t)

/-- R81 to R83: OR, AND, XOR bit by bit into VX; only VX changes, so VF is no flag here. -/
def Obligations.BitwiseWritesOnlyVx : Prop :=
  ∀ (x y : Reg) (s : State),
    (WordXYN (.orReg x y) 8 x y 1 ∧ Completes (.orReg x y) s fun t =>
      (∀ k, (t.reg x).getLsbD k = ((s.reg x).getLsbD k || (s.reg y).getLsbD k)) ∧ Frame { regs := (· = x) } s t) ∧
    (WordXYN (.andReg x y) 8 x y 2 ∧ Completes (.andReg x y) s fun t =>
      (∀ k, (t.reg x).getLsbD k = ((s.reg x).getLsbD k && (s.reg y).getLsbD k)) ∧ Frame { regs := (· = x) } s t) ∧
    (WordXYN (.xorReg x y) 8 x y 3 ∧ Completes (.xorReg x y) s fun t =>
      (∀ k, (t.reg x).getLsbD k = ((s.reg x).getLsbD k ^^ (s.reg y).getLsbD k)) ∧ Frame { regs := (· = x) } s t)

/-- R84: 8XY4 adds modulo 256, then VF = 1 exactly when the exact sum exceeds 255. With X = F, VF is the flag. -/
def Obligations.AddRegistersSetsCarry : Prop :=
  ∀ (x y : Reg) (s : State), WordXYN (.addReg x y) 8 x y 4 ∧ Completes (.addReg x y) s fun t =>
    (x ≠ 0xF → (t.reg x).toNat = ((s.reg x).toNat + (s.reg y).toNat) % 256) ∧
    ((s.reg x).toNat + (s.reg y).toNat > 255 → t.reg 0xF = 1) ∧
    (¬(s.reg x).toNat + (s.reg y).toNat > 255 → t.reg 0xF = 0) ∧
    Frame { regs := fun r => r = x ∨ r = 0xF } s t

/-- R85: 8XY5 subtracts VY from VX modulo 256, then VF = 1 exactly when VX ≥ VY. With X = F, VF is the flag. -/
def Obligations.SubtractSetsNoBorrow : Prop :=
  ∀ (x y : Reg) (s : State), WordXYN (.subReg x y) 8 x y 5 ∧ Completes (.subReg x y) s fun t =>
    (x ≠ 0xF → ((t.reg x).toNat : Int) = ((s.reg x).toNat - (s.reg y).toNat : Int) % 256) ∧
    ((s.reg x).toNat ≥ (s.reg y).toNat → t.reg 0xF = 1) ∧
    (¬(s.reg x).toNat ≥ (s.reg y).toNat → t.reg 0xF = 0) ∧
    Frame { regs := fun r => r = x ∨ r = 0xF } s t

/-- R87: 8XY7 subtracts VX from VY modulo 256 into VX, then VF = 1 exactly when VY ≥ VX. With X = F, VF is the flag. -/
def Obligations.ReverseSubtractSetsNoBorrow : Prop :=
  ∀ (x y : Reg) (s : State), WordXYN (.subnReg x y) 8 x y 7 ∧ Completes (.subnReg x y) s fun t =>
    (x ≠ 0xF → ((t.reg x).toNat : Int) = ((s.reg y).toNat - (s.reg x).toNat : Int) % 256) ∧
    ((s.reg y).toNat ≥ (s.reg x).toNat → t.reg 0xF = 1) ∧
    (¬(s.reg y).toNat ≥ (s.reg x).toNat → t.reg 0xF = 0) ∧
    Frame { regs := fun r => r = x ∨ r = 0xF } s t

/-- R86, R88: the shifts are of VX whatever Y is, by one, and VF is the bit shifted out. With X = F, VF is the flag. -/
def Obligations.ShiftsMoveVxByOne : Prop :=
  ∀ (x y : Reg) (s : State),
    (WordXYN (.shr x y) 8 x y 6 ∧ Completes (.shr x y) s fun t =>
      (x ≠ 0xF → (t.reg x).toNat = (s.reg x).toNat / 2) ∧ (t.reg 0xF).toNat = (s.reg x).toNat % 2 ∧
      Frame { regs := fun r => r = x ∨ r = 0xF } s t) ∧
    (WordXYN (.shl x y) 8 x y 0xE ∧ Completes (.shl x y) s fun t =>
      (x ≠ 0xF → (t.reg x).toNat = (s.reg x).toNat * 2 % 256) ∧ (t.reg 0xF).toNat = (s.reg x).toNat / 128 ∧
      Frame { regs := fun r => r = x ∨ r = 0xF } s t)

/-- R89: CXNN writes the step's random byte masked with NN. It is the byte the host sent, where it sent one, and some
byte otherwise: how the byte reaches the step is the model's own choice (log entry 2). -/
def Obligations.RandomMasksTheDrawnByte : Prop :=
  ∀ (x : Reg) (nn : Byte) (s : State), WordXNN (.rnd x nn) 0xC x nn.toNat ∧
    ∃ b : Byte, (∀ r, s.rndIn = some r → b = r) ∧
      Completes (.rnd x nn) s fun t => t.reg x = b &&& nn ∧ Frame { regs := (· = x) } s t

/-! ## Address register, memory, timers -/

/-- R91, R93: ANNN sets I to NNN, and FX29 sets I to FONT_BASE plus 5 times the low nibble of VX. -/
def Obligations.LoadIndexAndGlyphAddress : Prop :=
  ∀ (x : Reg) (nnn : Addr) (s : State),
    (WordNNN (.ldI nnn) 0xA nnn ∧ Completes (.ldI nnn) s fun t => t.I = nnn ∧ Frame { I := True } s t) ∧
    (WordXNN (.ldF x) 0xF x 0x29 ∧ Completes (.ldF x) s fun t =>
      t.I.toNat = fontBase + (s.reg x).toNat % 16 * 5 ∧ Frame { I := True } s t)

/-- R92: FX1E adds VX to I exactly, writes no flag, and halts with IndexOutOfRange and the sum above 0xFFF. -/
def Obligations.AddToIndexOrHalts : Prop :=
  ∀ (x : Reg) (s : State), WordXNN (.addI x) 0xF x 0x1E ∧
    (s.I.toNat + (s.reg x).toNat ≤ 0xFFF → Completes (.addI x) s fun t =>
      t.I.toNat = s.I.toNat + (s.reg x).toNat ∧ Frame { I := True } s t) ∧
    (s.I.toNat + (s.reg x).toNat > 0xFFF →
      Halts (.addI x) s .indexOutOfRange (some (s.I.toNat + (s.reg x).toNat)))

/-- R94: FX33 stores the hundreds, tens and units of VX at I, I + 1, I + 2 and changes nothing else, I included; it
halts when I + 2 > 0xFFF. Memory is in its canonical form (StepKeepsTheStateLegal). -/
def Obligations.BcdStoresThreeDigits : Prop :=
  ∀ (x : Reg) (s : State), WordXNN (.ldB x) 0xF x 0x33 ∧
    (Memory.wf s.M = true → s.I.toNat + 2 ≤ 0xFFF → Completes (.ldB x) s fun t =>
      (t.M.read s.I.toNat).toNat = (s.reg x).toNat / 100 ∧
      (t.M.read (s.I.toNat + 1)).toNat = (s.reg x).toNat / 10 % 10 ∧
      (t.M.read (s.I.toNat + 2)).toNat = (s.reg x).toNat % 10 ∧
      Frame { mem := fun a => s.I.toNat ≤ a ∧ a ≤ s.I.toNat + 2 } s t) ∧
    (s.I.toNat + 2 > 0xFFF → Halts (.ldB x) s .memOutOfBounds (some 0x1000))

/-- R95: FX55 stores V0 to VX at I, I + 1, and so on, and changes nothing else, I included; it halts when
I + X > 0xFFF. Memory is in its canonical form (StepKeepsTheStateLegal). -/
def Obligations.RangeStoreStoresV0ToVx : Prop :=
  ∀ (x : Reg) (s : State), WordXNN (.stRegs x) 0xF x 0x55 ∧
    (Memory.wf s.M = true → s.I.toNat + x.toNat ≤ 0xFFF → Completes (.stRegs x) s fun t =>
      (∀ k : Reg, k.toNat ≤ x.toNat → t.M.read (s.I.toNat + k.toNat) = s.reg k) ∧
      Frame { mem := fun a => s.I.toNat ≤ a ∧ a ≤ s.I.toNat + x.toNat } s t) ∧
    (s.I.toNat + x.toNat > 0xFFF → Halts (.stRegs x) s .memOutOfBounds (some 0x1000))

/-- R96: FX65 loads V0 to VX from I, I + 1, and so on, and changes nothing else, I included; it halts when
I + X > 0xFFF. -/
def Obligations.RangeLoadLoadsV0ToVx : Prop :=
  ∀ (x : Reg) (s : State), WordXNN (.ldRegs x) 0xF x 0x65 ∧
    (s.I.toNat + x.toNat ≤ 0xFFF → Completes (.ldRegs x) s fun t =>
      (∀ k : Reg, k.toNat ≤ x.toNat → t.reg k = s.M.read (s.I.toNat + k.toNat)) ∧
      Frame { regs := fun r => r.toNat ≤ x.toNat } s t) ∧
    (s.I.toNat + x.toNat > 0xFFF → Halts (.ldRegs x) s .memOutOfBounds (some 0x1000))

/-- R50: the word that FX55 writes with V0 and V1 is what a fetch from there reads next. -/
def Obligations.RangeStoreIsSeenByTheNextFetch : Prop :=
  ∀ (x : Reg) (s : State), Memory.wf s.M = true → 1 ≤ x.toNat → s.I.toNat + x.toNat ≤ 0xFFF →
    Completes (.stRegs x) s fun t => fetch16 s.I.toNat t = .ok (wordOfBytes (s.reg 0) (s.reg 1))

/-- R97 to R99: FX07 reads DT, FX15 and FX18 write DT and ST. -/
def Obligations.TimerInstructionsMoveTheTimers : Prop :=
  ∀ (x : Reg) (s : State),
    (WordXNN (.ldVxDt x) 0xF x 0x07 ∧ Completes (.ldVxDt x) s fun t =>
      t.reg x = s.DT ∧ Frame { regs := (· = x) } s t) ∧
    (WordXNN (.ldDtVx x) 0xF x 0x15 ∧ Completes (.ldDtVx x) s fun t =>
      t.DT = s.reg x ∧ Frame { DT := True } s t) ∧
    (WordXNN (.ldStVx x) 0xF x 0x18 ∧ Completes (.ldStVx x) s fun t =>
      t.ST = s.reg x ∧ Frame { ST := True } s t)

/-! ## Keypad -/

/-- R105, R106: the key skips ask whether the key named by the low nibble of VX is down. -/
def Obligations.KeySkipsAskTheLowNibble : Prop :=
  ∀ (x : Reg) (s : State),
    (WordXNN (.skp x) 0xE x 0x9E ∧ Completes (.skp x) s fun t =>
      (s.pressed.getLsbD ((s.reg x).toNat % 16) = true → t.PC = s.PC + 2) ∧
      (s.pressed.getLsbD ((s.reg x).toNat % 16) = false → t.PC = s.PC) ∧ Frame { PC := True } s t) ∧
    (WordXNN (.sknp x) 0xE x 0xA1 ∧ Completes (.sknp x) s fun t =>
      (s.pressed.getLsbD ((s.reg x).toNat % 16) = false → t.PC = s.PC + 2) ∧
      (s.pressed.getLsbD ((s.reg x).toNat % 16) = true → t.PC = s.PC) ∧ Frame { PC := True } s t)

/-- R104 and R107, the six rows of the transition table: a wait that is not resolved rewinds PC by 2 and changes only
`wait` beside it; a wait whose captured key is up resolves, writes the key code to VX and leaves PC past the word. -/
def Obligations.KeyWaitFollowsTheTransitionTable : Prop :=
  ∀ (x : Reg) (s : State), WordXNN (.ldVxK x) 0xF x 0x0A ∧
    ((s.wait = .idle ∨ s.wait = .awaitingPress) → s.pressed = 0 → Completes (.ldVxK x) s fun t =>
      t.wait = .awaitingPress ∧ t.PC = s.PC - 2 ∧ Frame { wait := True, PC := True } s t) ∧
    (∀ k : Key, (s.wait = .idle ∨ s.wait = .awaitingPress) → s.pressed.getLsbD k.toNat = true →
      (∀ j, j < k.toNat → s.pressed.getLsbD j = false) → Completes (.ldVxK x) s fun t =>
        t.wait = .awaitingRelease k ∧ t.PC = s.PC - 2 ∧ Frame { wait := True, PC := True } s t) ∧
    (∀ k : Key, s.wait = .awaitingRelease k → s.pressed.getLsbD k.toNat = true → Completes (.ldVxK x) s fun t =>
      t.PC = s.PC - 2 ∧ Frame { PC := True } s t) ∧
    (∀ k : Key, s.wait = .awaitingRelease k → s.pressed.getLsbD k.toNat = false → Completes (.ldVxK x) s fun t =>
      t.wait = .idle ∧ (t.reg x).toNat = k.toNat ∧ Frame { wait := True, regs := (· = x) } s t)

/-! ## Display -/

/-- R111: 00E0 turns every logical pixel off and keeps the phosphor. -/
def Obligations.ClearTurnsPixelsOffAndKeepsPhosphor : Prop :=
  encode .cls = 0x00E0 ∧
  ∀ s : State, Completes .cls s fun t => (∀ x y, gridCell t.lit x y = false) ∧ Frame { lit := True } s t

/-- R109, R110, R112 (all but its last corner case, see DrawingTwiceRestoresThePixels): pixel by pixel, what the nested loops of the blitter do. A pixel that a set sprite bit falls on is
toggled and, when it turns on, glows at 255; every other pixel is as before. VF is 1 exactly when a set bit fell on a
pixel that was on. The start coordinates are VX and VY from before VF is written. A row past the top of memory halts. -/
def Obligations.DrawTogglesExactlyTheSpritePixels : Prop :=
  ∀ (x y : Reg) (n : BitVec 4) (s : State), WordXYN (.drw x y n) 0xD x y n.toNat ∧
    (s.I.toNat + n.toNat ≤ 0x1000 → Completes (.drw x y n) s fun t =>
      (∀ px py, SpriteHits s (s.reg x) (s.reg y) n.toNat px py →
        gridCell t.lit px py = !gridCell s.lit px py ∧
        (gridCell s.lit px py = false → gridCell t.phos px py = 255) ∧
        (gridCell s.lit px py = true → gridCell t.phos px py = gridCell s.phos px py)) ∧
      (∀ px py, ¬SpriteHits s (s.reg x) (s.reg y) n.toNat px py →
        gridCell t.lit px py = gridCell s.lit px py ∧ gridCell t.phos px py = gridCell s.phos px py) ∧
      ((∃ px py, SpriteHits s (s.reg x) (s.reg y) n.toNat px py ∧ gridCell s.lit px py = true) → t.reg 0xF = 1) ∧
      ((∀ px py, SpriteHits s (s.reg x) (s.reg y) n.toNat px py → gridCell s.lit px py = false) → t.reg 0xF = 0) ∧
      Frame { regs := (· = 0xF), lit := True, phos := True } s t) ∧
    (1 ≤ n.toNat → s.I.toNat + n.toNat - 1 > 0xFFF → Halts (.drw x y n) s .memOutOfBounds (some 0x1000))

/-- R112, corner case: drawing the same sprite twice at the same place restores every logical pixel; and if the first
draw collided with nothing and the sprite has a set bit, the second reports a collision. (X and Y are not F: the first
draw writes VF.) -/
def Obligations.DrawingTwiceRestoresThePixels : Prop :=
  ∀ (x y : Reg) (n : BitVec 4) (s t : State), x ≠ 0xF → y ≠ 0xF → s.I.toNat + n.toNat ≤ 0x1000 →
    exec (.drw x y n) s = .next t → Completes (.drw x y n) t fun u =>
      (∀ px py, gridCell u.lit px py = gridCell s.lit px py) ∧
      (t.reg 0xF = 0 → (∃ r, r < n.toNat ∧ s.M.read (s.I.toNat + r) ≠ 0) → u.reg 0xF = 1)

/-- R116: phosphor never affects an instruction. Two states that differ only in the phosphor values and the render
buffer run every instruction to the same status, and, while the core runs, to states that differ only there. -/
def Obligations.PhosphorNeverAffectsAnInstruction : Prop :=
  ∀ (i : Instr) (s : State) (g : Grid Byte) (b : Option (Vector Byte 8192)),
    ∃ t u, exec i s = .next t ∧ exec i { s with phos := g, rbuf := b } = .next u ∧ u.status = t.status ∧
      (s.isRunning → t.isRunning → u = { t with phos := u.phos, rbuf := b })

/-! ## The host's other steps and reset -/

/-- R125: `timer_step` takes 1 from each timer that is above 0, whatever the status, and changes nothing else. -/
def Obligations.TimerStepCountsBothTimersDown : Prop :=
  ∀ s : State, ∃ t, hostStep .timerStep s = .next t ∧ t.DT.toNat = s.DT.toNat - 1 ∧ t.ST.toNat = s.ST.toNat - 1 ∧
    Frame { DT := True, ST := True } s t

/-- R101: a key event changes only whether that key is down; it does not touch `wait` and does not ask the status. -/
def Obligations.KeyEventsChangeOneKey : Prop :=
  ∀ (s : State) (k : Key),
    (∃ t, hostStep (.keyPress k) s = .next t ∧
      (∀ j : Key, t.pressed.getLsbD j.toNat = (s.pressed.getLsbD j.toNat || decide (j = k))) ∧
      Frame { pressed := True } s t) ∧
    (∃ t, hostStep (.keyRelease k) s = .next t ∧
      (∀ j : Key, t.pressed.getLsbD j.toNat = (s.pressed.getLsbD j.toNat && !decide (j = k))) ∧
      Frame { pressed := True } s t)

/-- R113, R114: `render_step` decays each pixel that is off by DECAY_STEP, floored at 0, then maps: channel ch of pixel
(x, y) is byte (y * 64 + x) * 4 + ch of the render buffer. It changes nothing else. -/
def Obligations.RenderStepDecaysThenMaps : Prop :=
  ∀ s : State, 1 ≤ decayStep ∧ decayStep ≤ 255 ∧
    ∃ t buf, hostStep .renderStep s = .next t ∧ t.rbuf = some buf ∧
      (∀ px py, (gridCell s.lit px py = false →
          (gridCell t.phos px py).toNat = (gridCell s.phos px py).toNat - decayStep) ∧
        (gridCell s.lit px py = true → gridCell t.phos px py = gridCell s.phos px py)) ∧
      (∀ (px : Fin 64) (py : Fin 32) (ch : Fin 4),
        buf.toList[(py.val * 64 + px.val) * 4 + ch.val]? = some (colorMap ch (gridCell t.phos px py))) ∧
      Frame { phos := True, rbuf := True } s t

/-- R115, the decay law: after k renders with nothing else between them, a pixel that is off has phosphor
max(0, p - k * DECAY_STEP), and a pixel that is on has kept its own. And no instruction decays phosphor: one that raises
no fault leaves each value as it is or sets it to 255. -/
def Obligations.PhosphorDecaysByTheLaw : Prop :=
  (∀ (k : Nat) (s : State) (px : Fin 64) (py : Fin 32),
    gridCell (renderStep^[k] s).lit px py = gridCell s.lit px py ∧
    (gridCell s.lit px py = false →
      (gridCell (renderStep^[k] s).phos px py).toNat = (gridCell s.phos px py).toNat - k * decayStep) ∧
    (gridCell s.lit px py = true → gridCell (renderStep^[k] s).phos px py = gridCell s.phos px py)) ∧
  (∀ (i : Instr) (s t : State), s.isRunning → exec i s = .next t → t.isRunning →
    ∀ px py, gridCell t.phos px py = gridCell s.phos px py ∨ gridCell t.phos px py = 255)

/-- R35, for the empty ROM that the reset state stands for (log entry 12): the value of every part of the core's state. -/
def Obligations.ResetLeavesTheValuesOfTheTable : Prop :=
  State.reset.hasResetValues ∧
  (∀ g : Fin 80, State.reset.M.read (fontBase + g.val) = Config.fontTable g) ∧
  (∀ a, a < 0x1000 → (a < fontBase ∨ fontBase + 80 ≤ a) → State.reset.M.read a = 0)

/-- R35, R134, R135: a reset with a ROM that fits gives every part its reset value, from any state and any status: the
font at FONT_BASE, the ROM from 0x200 on, and zeros elsewhere. With an empty ROM the first `cpu_step` halts as
UnsupportedInstruction. A longer ROM is refused. R136: the font ends at or below 0x200. That a reset may come in any state
and keeps the host's steps still to happen is the model's choice (log entry 15). -/
def Obligations.ResetLoadsTheRom : Prop :=
  fontBase + 80 ≤ 0x200 ∧
  ∀ (s : State) (rom : List Byte),
    (rom.length ≤ 3584 → ∃ t, hostStep (.reset rom) s = .next t ∧ t.hasResetValues ∧
      (∀ g : Fin 80, t.M.read (fontBase + g.val) = Config.fontTable g) ∧
      (∀ j, (h : j < rom.length) → t.M.read (0x200 + j) = rom[j]) ∧
      (∀ a, a < 0x1000 → (a < fontBase ∨ fontBase + 80 ≤ a) → (a < 0x200 ∨ 0x200 + rom.length ≤ a) →
        t.M.read a = 0) ∧
      t.inputs = s.inputs ∧
      (rom = [] → ∀ rnd, ∃ u, cpuStep rnd t = .next u ∧
        u.status = .halted ⟨.unsupportedInstruction, some 0, 0x200, some 0⟩)) ∧
    (3584 < rom.length → hostStep (.reset rom) s = .refused (.romTooLong rom.length))

/-! ## Invariants and whole-machine rules -/

/-- Every step keeps memory in its canonical form and the stack within its capacity (R22, "Invariant: depth never exceeds
capacity"), from every state that has them. -/
def Obligations.StepKeepsTheStateLegal : Prop :=
  ∀ s t : State, s.legal → step s = .next t → t.legal

/-- The reset state is legal. -/
def Obligations.ResetStateIsLegal : Prop := State.reset.legal

/-- R28 as an invariant of every step: while the core runs, a pixel that is on has phosphor 255. -/
def Obligations.StepKeepsOnPixelsGlowing : Prop :=
  ∀ s t : State, s.onPixelsGlow → step s = .next t → t.onPixelsGlow

/-- R108, invariant 2, as an invariant of every step: a pending key wait stays at its FX0A word. -/
def Obligations.StepKeepsTheWaitAtItsInstruction : Prop :=
  ∀ s t : State, s.waitIsAtItsInstruction → step s = .next t → t.waitIsAtItsInstruction

/-- R21 as an invariant of every step: PC stays at or below 0x10FE, and return addresses lie in 0x002 to 0x1000. -/
def Obligations.StepKeepsThePcInRange : Prop :=
  ∀ s t : State, s.pcInRange → step s = .next t → t.pcInRange

/-- The reset state has the three invariants of a running core. -/
def Obligations.ResetStateHasTheRunningInvariants : Prop :=
  State.reset.onPixelsGlow ∧ State.reset.waitIsAtItsInstruction ∧ State.reset.pcInRange

/-- The whole-machine rules on who writes what, for every instruction that raises no fault: I (R18), the stack (R22),
the timers (R25), the pixels and the phosphor (R26, R27), memory (R37), the key-wait state (R108 point 1); and no
instruction writes the keys down, the render buffer or the status (R29, R33). -/
def Obligations.PartsChangeOnlyByTheirInstructions : Prop :=
  ∀ (i : Instr) (s t : State), s.isRunning → exec i s = .next t → t.isRunning →
    (t.I ≠ s.I → ∃ x nnn, i = .ldI nnn ∨ i = .addI x ∨ i = .ldF x) ∧
    (t.stack ≠ s.stack → ∃ nnn, i = .call nnn ∨ i = .ret) ∧
    (t.DT ≠ s.DT → ∃ x, i = .ldDtVx x) ∧ (t.ST ≠ s.ST → ∃ x, i = .ldStVx x) ∧
    (t.lit ≠ s.lit → ∃ x y n, i = .cls ∨ i = .drw x y n) ∧ (t.phos ≠ s.phos → ∃ x y n, i = .drw x y n) ∧
    (t.M ≠ s.M → ∃ x, i = .ldB x ∨ i = .stRegs x) ∧ (t.wait ≠ s.wait → ∃ x, i = .ldVxK x) ∧
    t.pressed = s.pressed ∧ t.rbuf = s.rbuf ∧ t.inputs = s.inputs

/-- R16: VF changes as a flag only in 8XY4, 8XY5, 8XY6, 8XY7, 8XYE and DXYN, and as an ordinary register only in an
instruction whose X is F. -/
def Obligations.VfChangesOnlyAsAFlagOrADestination : Prop :=
  ∀ (i : Instr) (s t : State), s.isRunning → exec i s = .next t → t.isRunning → t.reg 0xF ≠ s.reg 0xF →
    (∃ x y n, i = .addReg x y ∨ i = .subReg x y ∨ i = .shr x y ∨ i = .subnReg x y ∨ i = .shl x y ∨ i = .drw x y n) ∨
    (∃ y nn, i = .ldImm 0xF nn ∨ i = .addImm 0xF nn ∨ i = .ldReg 0xF y ∨ i = .orReg 0xF y ∨ i = .andReg 0xF y ∨
      i = .xorReg 0xF y ∨ i = .rnd 0xF nn ∨ i = .ldVxDt 0xF ∨ i = .ldVxK 0xF ∨ i = .ldRegs 0xF)
end

