-- ==== Sys2Proof/Laws/State.lean ====
section
/-! SUPPORT. What each write of one part of the state leaves in each field, and registers read after a write. -/

namespace Sys2Proof.Machine

variable (s : State)

/-! ### setReg -/

@[simp] theorem State.setReg_V (x : Reg) (v : Byte) : (s.setReg x v).V = s.V.set x.toNat v x.isLt := rfl
@[simp] theorem State.setReg_I (x : Reg) (v : Byte) : (s.setReg x v).I = s.I := rfl
@[simp] theorem State.setReg_PC (x : Reg) (v : Byte) : (s.setReg x v).PC = s.PC := rfl
@[simp] theorem State.setReg_stack (x : Reg) (v : Byte) : (s.setReg x v).stack = s.stack := rfl
@[simp] theorem State.setReg_DT (x : Reg) (v : Byte) : (s.setReg x v).DT = s.DT := rfl
@[simp] theorem State.setReg_ST (x : Reg) (v : Byte) : (s.setReg x v).ST = s.ST := rfl
@[simp] theorem State.setReg_lit (x : Reg) (v : Byte) : (s.setReg x v).lit = s.lit := rfl
@[simp] theorem State.setReg_phos (x : Reg) (v : Byte) : (s.setReg x v).phos = s.phos := rfl
@[simp] theorem State.setReg_pressed (x : Reg) (v : Byte) : (s.setReg x v).pressed = s.pressed := rfl
@[simp] theorem State.setReg_wait (x : Reg) (v : Byte) : (s.setReg x v).wait = s.wait := rfl
@[simp] theorem State.setReg_status (x : Reg) (v : Byte) : (s.setReg x v).status = s.status := rfl
@[simp] theorem State.setReg_M (x : Reg) (v : Byte) : (s.setReg x v).M = s.M := rfl
@[simp] theorem State.setReg_rbuf (x : Reg) (v : Byte) : (s.setReg x v).rbuf = s.rbuf := rfl
@[simp] theorem State.setReg_inputs (x : Reg) (v : Byte) : (s.setReg x v).inputs = s.inputs := rfl
@[simp] theorem State.setReg_rndIn (x : Reg) (v : Byte) : (s.setReg x v).rndIn = s.rndIn := rfl
@[simp] theorem State.setReg_freeCount (x : Reg) (v : Byte) : (s.setReg x v).freeCount = s.freeCount := rfl

/-! ### setI -/

@[simp] theorem State.setI_V (a : Addr) : (s.setI a).V = s.V := rfl
@[simp] theorem State.setI_I (a : Addr) : (s.setI a).I = a := rfl
@[simp] theorem State.setI_PC (a : Addr) : (s.setI a).PC = s.PC := rfl
@[simp] theorem State.setI_stack (a : Addr) : (s.setI a).stack = s.stack := rfl
@[simp] theorem State.setI_DT (a : Addr) : (s.setI a).DT = s.DT := rfl
@[simp] theorem State.setI_ST (a : Addr) : (s.setI a).ST = s.ST := rfl
@[simp] theorem State.setI_lit (a : Addr) : (s.setI a).lit = s.lit := rfl
@[simp] theorem State.setI_phos (a : Addr) : (s.setI a).phos = s.phos := rfl
@[simp] theorem State.setI_pressed (a : Addr) : (s.setI a).pressed = s.pressed := rfl
@[simp] theorem State.setI_wait (a : Addr) : (s.setI a).wait = s.wait := rfl
@[simp] theorem State.setI_status (a : Addr) : (s.setI a).status = s.status := rfl
@[simp] theorem State.setI_M (a : Addr) : (s.setI a).M = s.M := rfl
@[simp] theorem State.setI_rbuf (a : Addr) : (s.setI a).rbuf = s.rbuf := rfl
@[simp] theorem State.setI_inputs (a : Addr) : (s.setI a).inputs = s.inputs := rfl
@[simp] theorem State.setI_rndIn (a : Addr) : (s.setI a).rndIn = s.rndIn := rfl
@[simp] theorem State.setI_freeCount (a : Addr) : (s.setI a).freeCount = s.freeCount := rfl
@[simp] theorem State.setI_reg (a : Addr) (x : Reg) : (s.setI a).reg x = s.reg x := rfl

/-! ### setPC -/

@[simp] theorem State.setPC_V (a : Word) : (s.setPC a).V = s.V := rfl
@[simp] theorem State.setPC_I (a : Word) : (s.setPC a).I = s.I := rfl
@[simp] theorem State.setPC_PC (a : Word) : (s.setPC a).PC = a := rfl
@[simp] theorem State.setPC_stack (a : Word) : (s.setPC a).stack = s.stack := rfl
@[simp] theorem State.setPC_DT (a : Word) : (s.setPC a).DT = s.DT := rfl
@[simp] theorem State.setPC_ST (a : Word) : (s.setPC a).ST = s.ST := rfl
@[simp] theorem State.setPC_lit (a : Word) : (s.setPC a).lit = s.lit := rfl
@[simp] theorem State.setPC_phos (a : Word) : (s.setPC a).phos = s.phos := rfl
@[simp] theorem State.setPC_pressed (a : Word) : (s.setPC a).pressed = s.pressed := rfl
@[simp] theorem State.setPC_wait (a : Word) : (s.setPC a).wait = s.wait := rfl
@[simp] theorem State.setPC_status (a : Word) : (s.setPC a).status = s.status := rfl
@[simp] theorem State.setPC_M (a : Word) : (s.setPC a).M = s.M := rfl
@[simp] theorem State.setPC_rbuf (a : Word) : (s.setPC a).rbuf = s.rbuf := rfl
@[simp] theorem State.setPC_inputs (a : Word) : (s.setPC a).inputs = s.inputs := rfl
@[simp] theorem State.setPC_rndIn (a : Word) : (s.setPC a).rndIn = s.rndIn := rfl
@[simp] theorem State.setPC_freeCount (a : Word) : (s.setPC a).freeCount = s.freeCount := rfl
@[simp] theorem State.setPC_reg (a : Word) (x : Reg) : (s.setPC a).reg x = s.reg x := rfl

/-! ### setStack -/

@[simp] theorem State.setStack_V (l : List Word) : (s.setStack l).V = s.V := rfl
@[simp] theorem State.setStack_I (l : List Word) : (s.setStack l).I = s.I := rfl
@[simp] theorem State.setStack_PC (l : List Word) : (s.setStack l).PC = s.PC := rfl
@[simp] theorem State.setStack_stack (l : List Word) : (s.setStack l).stack = l := rfl
@[simp] theorem State.setStack_DT (l : List Word) : (s.setStack l).DT = s.DT := rfl
@[simp] theorem State.setStack_ST (l : List Word) : (s.setStack l).ST = s.ST := rfl
@[simp] theorem State.setStack_lit (l : List Word) : (s.setStack l).lit = s.lit := rfl
@[simp] theorem State.setStack_phos (l : List Word) : (s.setStack l).phos = s.phos := rfl
@[simp] theorem State.setStack_pressed (l : List Word) : (s.setStack l).pressed = s.pressed := rfl
@[simp] theorem State.setStack_wait (l : List Word) : (s.setStack l).wait = s.wait := rfl
@[simp] theorem State.setStack_status (l : List Word) : (s.setStack l).status = s.status := rfl
@[simp] theorem State.setStack_M (l : List Word) : (s.setStack l).M = s.M := rfl
@[simp] theorem State.setStack_rbuf (l : List Word) : (s.setStack l).rbuf = s.rbuf := rfl
@[simp] theorem State.setStack_inputs (l : List Word) : (s.setStack l).inputs = s.inputs := rfl
@[simp] theorem State.setStack_rndIn (l : List Word) : (s.setStack l).rndIn = s.rndIn := rfl
@[simp] theorem State.setStack_freeCount (l : List Word) : (s.setStack l).freeCount = s.freeCount := rfl
@[simp] theorem State.setStack_reg (l : List Word) (x : Reg) : (s.setStack l).reg x = s.reg x := rfl

/-! ### setDT -/

@[simp] theorem State.setDT_V (v : Byte) : (s.setDT v).V = s.V := rfl
@[simp] theorem State.setDT_I (v : Byte) : (s.setDT v).I = s.I := rfl
@[simp] theorem State.setDT_PC (v : Byte) : (s.setDT v).PC = s.PC := rfl
@[simp] theorem State.setDT_stack (v : Byte) : (s.setDT v).stack = s.stack := rfl
@[simp] theorem State.setDT_DT (v : Byte) : (s.setDT v).DT = v := rfl
@[simp] theorem State.setDT_ST (v : Byte) : (s.setDT v).ST = s.ST := rfl
@[simp] theorem State.setDT_lit (v : Byte) : (s.setDT v).lit = s.lit := rfl
@[simp] theorem State.setDT_phos (v : Byte) : (s.setDT v).phos = s.phos := rfl
@[simp] theorem State.setDT_pressed (v : Byte) : (s.setDT v).pressed = s.pressed := rfl
@[simp] theorem State.setDT_wait (v : Byte) : (s.setDT v).wait = s.wait := rfl
@[simp] theorem State.setDT_status (v : Byte) : (s.setDT v).status = s.status := rfl
@[simp] theorem State.setDT_M (v : Byte) : (s.setDT v).M = s.M := rfl
@[simp] theorem State.setDT_rbuf (v : Byte) : (s.setDT v).rbuf = s.rbuf := rfl
@[simp] theorem State.setDT_inputs (v : Byte) : (s.setDT v).inputs = s.inputs := rfl
@[simp] theorem State.setDT_rndIn (v : Byte) : (s.setDT v).rndIn = s.rndIn := rfl
@[simp] theorem State.setDT_freeCount (v : Byte) : (s.setDT v).freeCount = s.freeCount := rfl
@[simp] theorem State.setDT_reg (v : Byte) (x : Reg) : (s.setDT v).reg x = s.reg x := rfl

/-! ### setST -/

@[simp] theorem State.setST_V (v : Byte) : (s.setST v).V = s.V := rfl
@[simp] theorem State.setST_I (v : Byte) : (s.setST v).I = s.I := rfl
@[simp] theorem State.setST_PC (v : Byte) : (s.setST v).PC = s.PC := rfl
@[simp] theorem State.setST_stack (v : Byte) : (s.setST v).stack = s.stack := rfl
@[simp] theorem State.setST_DT (v : Byte) : (s.setST v).DT = s.DT := rfl
@[simp] theorem State.setST_ST (v : Byte) : (s.setST v).ST = v := rfl
@[simp] theorem State.setST_lit (v : Byte) : (s.setST v).lit = s.lit := rfl
@[simp] theorem State.setST_phos (v : Byte) : (s.setST v).phos = s.phos := rfl
@[simp] theorem State.setST_pressed (v : Byte) : (s.setST v).pressed = s.pressed := rfl
@[simp] theorem State.setST_wait (v : Byte) : (s.setST v).wait = s.wait := rfl
@[simp] theorem State.setST_status (v : Byte) : (s.setST v).status = s.status := rfl
@[simp] theorem State.setST_M (v : Byte) : (s.setST v).M = s.M := rfl
@[simp] theorem State.setST_rbuf (v : Byte) : (s.setST v).rbuf = s.rbuf := rfl
@[simp] theorem State.setST_inputs (v : Byte) : (s.setST v).inputs = s.inputs := rfl
@[simp] theorem State.setST_rndIn (v : Byte) : (s.setST v).rndIn = s.rndIn := rfl
@[simp] theorem State.setST_freeCount (v : Byte) : (s.setST v).freeCount = s.freeCount := rfl
@[simp] theorem State.setST_reg (v : Byte) (x : Reg) : (s.setST v).reg x = s.reg x := rfl

/-! ### setLit -/

@[simp] theorem State.setLit_V (g : Grid Bool) : (s.setLit g).V = s.V := rfl
@[simp] theorem State.setLit_I (g : Grid Bool) : (s.setLit g).I = s.I := rfl
@[simp] theorem State.setLit_PC (g : Grid Bool) : (s.setLit g).PC = s.PC := rfl
@[simp] theorem State.setLit_stack (g : Grid Bool) : (s.setLit g).stack = s.stack := rfl
@[simp] theorem State.setLit_DT (g : Grid Bool) : (s.setLit g).DT = s.DT := rfl
@[simp] theorem State.setLit_ST (g : Grid Bool) : (s.setLit g).ST = s.ST := rfl
@[simp] theorem State.setLit_lit (g : Grid Bool) : (s.setLit g).lit = g := rfl
@[simp] theorem State.setLit_phos (g : Grid Bool) : (s.setLit g).phos = s.phos := rfl
@[simp] theorem State.setLit_pressed (g : Grid Bool) : (s.setLit g).pressed = s.pressed := rfl
@[simp] theorem State.setLit_wait (g : Grid Bool) : (s.setLit g).wait = s.wait := rfl
@[simp] theorem State.setLit_status (g : Grid Bool) : (s.setLit g).status = s.status := rfl
@[simp] theorem State.setLit_M (g : Grid Bool) : (s.setLit g).M = s.M := rfl
@[simp] theorem State.setLit_rbuf (g : Grid Bool) : (s.setLit g).rbuf = s.rbuf := rfl
@[simp] theorem State.setLit_inputs (g : Grid Bool) : (s.setLit g).inputs = s.inputs := rfl
@[simp] theorem State.setLit_rndIn (g : Grid Bool) : (s.setLit g).rndIn = s.rndIn := rfl
@[simp] theorem State.setLit_freeCount (g : Grid Bool) : (s.setLit g).freeCount = s.freeCount := rfl
@[simp] theorem State.setLit_reg (g : Grid Bool) (x : Reg) : (s.setLit g).reg x = s.reg x := rfl

/-! ### setPhos -/

@[simp] theorem State.setPhos_V (g : Grid Byte) : (s.setPhos g).V = s.V := rfl
@[simp] theorem State.setPhos_I (g : Grid Byte) : (s.setPhos g).I = s.I := rfl
@[simp] theorem State.setPhos_PC (g : Grid Byte) : (s.setPhos g).PC = s.PC := rfl
@[simp] theorem State.setPhos_stack (g : Grid Byte) : (s.setPhos g).stack = s.stack := rfl
@[simp] theorem State.setPhos_DT (g : Grid Byte) : (s.setPhos g).DT = s.DT := rfl
@[simp] theorem State.setPhos_ST (g : Grid Byte) : (s.setPhos g).ST = s.ST := rfl
@[simp] theorem State.setPhos_lit (g : Grid Byte) : (s.setPhos g).lit = s.lit := rfl
@[simp] theorem State.setPhos_phos (g : Grid Byte) : (s.setPhos g).phos = g := rfl
@[simp] theorem State.setPhos_pressed (g : Grid Byte) : (s.setPhos g).pressed = s.pressed := rfl
@[simp] theorem State.setPhos_wait (g : Grid Byte) : (s.setPhos g).wait = s.wait := rfl
@[simp] theorem State.setPhos_status (g : Grid Byte) : (s.setPhos g).status = s.status := rfl
@[simp] theorem State.setPhos_M (g : Grid Byte) : (s.setPhos g).M = s.M := rfl
@[simp] theorem State.setPhos_rbuf (g : Grid Byte) : (s.setPhos g).rbuf = s.rbuf := rfl
@[simp] theorem State.setPhos_inputs (g : Grid Byte) : (s.setPhos g).inputs = s.inputs := rfl
@[simp] theorem State.setPhos_rndIn (g : Grid Byte) : (s.setPhos g).rndIn = s.rndIn := rfl
@[simp] theorem State.setPhos_freeCount (g : Grid Byte) : (s.setPhos g).freeCount = s.freeCount := rfl
@[simp] theorem State.setPhos_reg (g : Grid Byte) (x : Reg) : (s.setPhos g).reg x = s.reg x := rfl

/-! ### setWait -/

@[simp] theorem State.setWait_V (w : WaitState) : (s.setWait w).V = s.V := rfl
@[simp] theorem State.setWait_I (w : WaitState) : (s.setWait w).I = s.I := rfl
@[simp] theorem State.setWait_PC (w : WaitState) : (s.setWait w).PC = s.PC := rfl
@[simp] theorem State.setWait_stack (w : WaitState) : (s.setWait w).stack = s.stack := rfl
@[simp] theorem State.setWait_DT (w : WaitState) : (s.setWait w).DT = s.DT := rfl
@[simp] theorem State.setWait_ST (w : WaitState) : (s.setWait w).ST = s.ST := rfl
@[simp] theorem State.setWait_lit (w : WaitState) : (s.setWait w).lit = s.lit := rfl
@[simp] theorem State.setWait_phos (w : WaitState) : (s.setWait w).phos = s.phos := rfl
@[simp] theorem State.setWait_pressed (w : WaitState) : (s.setWait w).pressed = s.pressed := rfl
@[simp] theorem State.setWait_wait (w : WaitState) : (s.setWait w).wait = w := rfl
@[simp] theorem State.setWait_status (w : WaitState) : (s.setWait w).status = s.status := rfl
@[simp] theorem State.setWait_M (w : WaitState) : (s.setWait w).M = s.M := rfl
@[simp] theorem State.setWait_rbuf (w : WaitState) : (s.setWait w).rbuf = s.rbuf := rfl
@[simp] theorem State.setWait_inputs (w : WaitState) : (s.setWait w).inputs = s.inputs := rfl
@[simp] theorem State.setWait_rndIn (w : WaitState) : (s.setWait w).rndIn = s.rndIn := rfl
@[simp] theorem State.setWait_freeCount (w : WaitState) : (s.setWait w).freeCount = s.freeCount := rfl
@[simp] theorem State.setWait_reg (w : WaitState) (x : Reg) : (s.setWait w).reg x = s.reg x := rfl

/-! ### setPressed -/

@[simp] theorem State.setPressed_V (p : BitVec 16) : (s.setPressed p).V = s.V := rfl
@[simp] theorem State.setPressed_I (p : BitVec 16) : (s.setPressed p).I = s.I := rfl
@[simp] theorem State.setPressed_PC (p : BitVec 16) : (s.setPressed p).PC = s.PC := rfl
@[simp] theorem State.setPressed_stack (p : BitVec 16) : (s.setPressed p).stack = s.stack := rfl
@[simp] theorem State.setPressed_DT (p : BitVec 16) : (s.setPressed p).DT = s.DT := rfl
@[simp] theorem State.setPressed_ST (p : BitVec 16) : (s.setPressed p).ST = s.ST := rfl
@[simp] theorem State.setPressed_lit (p : BitVec 16) : (s.setPressed p).lit = s.lit := rfl
@[simp] theorem State.setPressed_phos (p : BitVec 16) : (s.setPressed p).phos = s.phos := rfl
@[simp] theorem State.setPressed_pressed (p : BitVec 16) : (s.setPressed p).pressed = p := rfl
@[simp] theorem State.setPressed_wait (p : BitVec 16) : (s.setPressed p).wait = s.wait := rfl
@[simp] theorem State.setPressed_status (p : BitVec 16) : (s.setPressed p).status = s.status := rfl
@[simp] theorem State.setPressed_M (p : BitVec 16) : (s.setPressed p).M = s.M := rfl
@[simp] theorem State.setPressed_rbuf (p : BitVec 16) : (s.setPressed p).rbuf = s.rbuf := rfl
@[simp] theorem State.setPressed_inputs (p : BitVec 16) : (s.setPressed p).inputs = s.inputs := rfl
@[simp] theorem State.setPressed_rndIn (p : BitVec 16) : (s.setPressed p).rndIn = s.rndIn := rfl
@[simp] theorem State.setPressed_freeCount (p : BitVec 16) : (s.setPressed p).freeCount = s.freeCount := rfl
@[simp] theorem State.setPressed_reg (p : BitVec 16) (x : Reg) : (s.setPressed p).reg x = s.reg x := rfl

/-! ### setM -/

@[simp] theorem State.setM_V (m : Memory) : (s.setM m).V = s.V := rfl
@[simp] theorem State.setM_I (m : Memory) : (s.setM m).I = s.I := rfl
@[simp] theorem State.setM_PC (m : Memory) : (s.setM m).PC = s.PC := rfl
@[simp] theorem State.setM_stack (m : Memory) : (s.setM m).stack = s.stack := rfl
@[simp] theorem State.setM_DT (m : Memory) : (s.setM m).DT = s.DT := rfl
@[simp] theorem State.setM_ST (m : Memory) : (s.setM m).ST = s.ST := rfl
@[simp] theorem State.setM_lit (m : Memory) : (s.setM m).lit = s.lit := rfl
@[simp] theorem State.setM_phos (m : Memory) : (s.setM m).phos = s.phos := rfl
@[simp] theorem State.setM_pressed (m : Memory) : (s.setM m).pressed = s.pressed := rfl
@[simp] theorem State.setM_wait (m : Memory) : (s.setM m).wait = s.wait := rfl
@[simp] theorem State.setM_status (m : Memory) : (s.setM m).status = s.status := rfl
@[simp] theorem State.setM_M (m : Memory) : (s.setM m).M = m := rfl
@[simp] theorem State.setM_rbuf (m : Memory) : (s.setM m).rbuf = s.rbuf := rfl
@[simp] theorem State.setM_inputs (m : Memory) : (s.setM m).inputs = s.inputs := rfl
@[simp] theorem State.setM_rndIn (m : Memory) : (s.setM m).rndIn = s.rndIn := rfl
@[simp] theorem State.setM_freeCount (m : Memory) : (s.setM m).freeCount = s.freeCount := rfl
@[simp] theorem State.setM_reg (m : Memory) (x : Reg) : (s.setM m).reg x = s.reg x := rfl

/-! ### setRbuf -/

@[simp] theorem State.setRbuf_V (b : Vector Byte 8192) : (s.setRbuf b).V = s.V := rfl
@[simp] theorem State.setRbuf_I (b : Vector Byte 8192) : (s.setRbuf b).I = s.I := rfl
@[simp] theorem State.setRbuf_PC (b : Vector Byte 8192) : (s.setRbuf b).PC = s.PC := rfl
@[simp] theorem State.setRbuf_stack (b : Vector Byte 8192) : (s.setRbuf b).stack = s.stack := rfl
@[simp] theorem State.setRbuf_DT (b : Vector Byte 8192) : (s.setRbuf b).DT = s.DT := rfl
@[simp] theorem State.setRbuf_ST (b : Vector Byte 8192) : (s.setRbuf b).ST = s.ST := rfl
@[simp] theorem State.setRbuf_lit (b : Vector Byte 8192) : (s.setRbuf b).lit = s.lit := rfl
@[simp] theorem State.setRbuf_phos (b : Vector Byte 8192) : (s.setRbuf b).phos = s.phos := rfl
@[simp] theorem State.setRbuf_pressed (b : Vector Byte 8192) : (s.setRbuf b).pressed = s.pressed := rfl
@[simp] theorem State.setRbuf_wait (b : Vector Byte 8192) : (s.setRbuf b).wait = s.wait := rfl
@[simp] theorem State.setRbuf_status (b : Vector Byte 8192) : (s.setRbuf b).status = s.status := rfl
@[simp] theorem State.setRbuf_M (b : Vector Byte 8192) : (s.setRbuf b).M = s.M := rfl
@[simp] theorem State.setRbuf_rbuf (b : Vector Byte 8192) : (s.setRbuf b).rbuf = some b := rfl
@[simp] theorem State.setRbuf_inputs (b : Vector Byte 8192) : (s.setRbuf b).inputs = s.inputs := rfl
@[simp] theorem State.setRbuf_rndIn (b : Vector Byte 8192) : (s.setRbuf b).rndIn = s.rndIn := rfl
@[simp] theorem State.setRbuf_freeCount (b : Vector Byte 8192) : (s.setRbuf b).freeCount = s.freeCount := rfl
@[simp] theorem State.setRbuf_reg (b : Vector Byte 8192) (x : Reg) : (s.setRbuf b).reg x = s.reg x := rfl

/-! ### setRndIn -/

@[simp] theorem State.setRndIn_V (r : Option Byte) : (s.setRndIn r).V = s.V := rfl
@[simp] theorem State.setRndIn_I (r : Option Byte) : (s.setRndIn r).I = s.I := rfl
@[simp] theorem State.setRndIn_PC (r : Option Byte) : (s.setRndIn r).PC = s.PC := rfl
@[simp] theorem State.setRndIn_stack (r : Option Byte) : (s.setRndIn r).stack = s.stack := rfl
@[simp] theorem State.setRndIn_DT (r : Option Byte) : (s.setRndIn r).DT = s.DT := rfl
@[simp] theorem State.setRndIn_ST (r : Option Byte) : (s.setRndIn r).ST = s.ST := rfl
@[simp] theorem State.setRndIn_lit (r : Option Byte) : (s.setRndIn r).lit = s.lit := rfl
@[simp] theorem State.setRndIn_phos (r : Option Byte) : (s.setRndIn r).phos = s.phos := rfl
@[simp] theorem State.setRndIn_pressed (r : Option Byte) : (s.setRndIn r).pressed = s.pressed := rfl
@[simp] theorem State.setRndIn_wait (r : Option Byte) : (s.setRndIn r).wait = s.wait := rfl
@[simp] theorem State.setRndIn_status (r : Option Byte) : (s.setRndIn r).status = s.status := rfl
@[simp] theorem State.setRndIn_M (r : Option Byte) : (s.setRndIn r).M = s.M := rfl
@[simp] theorem State.setRndIn_rbuf (r : Option Byte) : (s.setRndIn r).rbuf = s.rbuf := rfl
@[simp] theorem State.setRndIn_inputs (r : Option Byte) : (s.setRndIn r).inputs = s.inputs := rfl
@[simp] theorem State.setRndIn_rndIn (r : Option Byte) : (s.setRndIn r).rndIn = r := rfl
@[simp] theorem State.setRndIn_freeCount (r : Option Byte) : (s.setRndIn r).freeCount = s.freeCount := rfl
@[simp] theorem State.setRndIn_reg (r : Option Byte) (x : Reg) : (s.setRndIn r).reg x = s.reg x := rfl

/-! ### setInputs -/

@[simp] theorem State.setInputs_V (l : List HostStep) : (s.setInputs l).V = s.V := rfl
@[simp] theorem State.setInputs_I (l : List HostStep) : (s.setInputs l).I = s.I := rfl
@[simp] theorem State.setInputs_PC (l : List HostStep) : (s.setInputs l).PC = s.PC := rfl
@[simp] theorem State.setInputs_stack (l : List HostStep) : (s.setInputs l).stack = s.stack := rfl
@[simp] theorem State.setInputs_DT (l : List HostStep) : (s.setInputs l).DT = s.DT := rfl
@[simp] theorem State.setInputs_ST (l : List HostStep) : (s.setInputs l).ST = s.ST := rfl
@[simp] theorem State.setInputs_lit (l : List HostStep) : (s.setInputs l).lit = s.lit := rfl
@[simp] theorem State.setInputs_phos (l : List HostStep) : (s.setInputs l).phos = s.phos := rfl
@[simp] theorem State.setInputs_pressed (l : List HostStep) : (s.setInputs l).pressed = s.pressed := rfl
@[simp] theorem State.setInputs_wait (l : List HostStep) : (s.setInputs l).wait = s.wait := rfl
@[simp] theorem State.setInputs_status (l : List HostStep) : (s.setInputs l).status = s.status := rfl
@[simp] theorem State.setInputs_M (l : List HostStep) : (s.setInputs l).M = s.M := rfl
@[simp] theorem State.setInputs_rbuf (l : List HostStep) : (s.setInputs l).rbuf = s.rbuf := rfl
@[simp] theorem State.setInputs_inputs (l : List HostStep) : (s.setInputs l).inputs = l := rfl
@[simp] theorem State.setInputs_rndIn (l : List HostStep) : (s.setInputs l).rndIn = s.rndIn := rfl
@[simp] theorem State.setInputs_freeCount (l : List HostStep) : (s.setInputs l).freeCount = s.freeCount := rfl
@[simp] theorem State.setInputs_reg (l : List HostStep) (x : Reg) : (s.setInputs l).reg x = s.reg x := rfl

/-! ### countFree -/

@[simp] theorem State.countFree_V : (s.countFree).V = s.V := rfl
@[simp] theorem State.countFree_I : (s.countFree).I = s.I := rfl
@[simp] theorem State.countFree_PC : (s.countFree).PC = s.PC := rfl
@[simp] theorem State.countFree_stack : (s.countFree).stack = s.stack := rfl
@[simp] theorem State.countFree_DT : (s.countFree).DT = s.DT := rfl
@[simp] theorem State.countFree_ST : (s.countFree).ST = s.ST := rfl
@[simp] theorem State.countFree_lit : (s.countFree).lit = s.lit := rfl
@[simp] theorem State.countFree_phos : (s.countFree).phos = s.phos := rfl
@[simp] theorem State.countFree_pressed : (s.countFree).pressed = s.pressed := rfl
@[simp] theorem State.countFree_wait : (s.countFree).wait = s.wait := rfl
@[simp] theorem State.countFree_status : (s.countFree).status = s.status := rfl
@[simp] theorem State.countFree_M : (s.countFree).M = s.M := rfl
@[simp] theorem State.countFree_rbuf : (s.countFree).rbuf = s.rbuf := rfl
@[simp] theorem State.countFree_inputs : (s.countFree).inputs = s.inputs := rfl
@[simp] theorem State.countFree_rndIn : (s.countFree).rndIn = s.rndIn := rfl
@[simp] theorem State.countFree_freeCount : (s.countFree).freeCount = s.freeCount + 1 := rfl
@[simp] theorem State.countFree_reg (x : Reg) : (s.countFree).reg x = s.reg x := rfl

/-! ### Registers -/

/-- A register reads as last written, and every other register is as before. -/
@[simp] theorem State.reg_setReg (x y : Reg) (v : Byte) : (s.setReg x v).reg y = if y = x then v else s.reg y := by
  unfold State.reg State.setReg Vector.get
  simp only [BitVec.val_toFin, Fin.val_cast]
  have hiff : x.toNat = y.toNat ↔ y = x := by rw [← BitVec.toNat_inj]; exact eq_comm
  simp [Vector.toArray_set, Array.getElem_set, hiff]

/-- The number of VF. -/
@[simp] theorem vf_eq : vf = 0xF#4 := rfl

/-- The flag is written last: VF is the flag, whatever X is. -/
@[simp] theorem State.reg_vf_setResultThenFlag (x : Reg) (result flag : Byte) :
    (s.setResultThenFlag x result flag).reg 0xF#4 = flag := by
  simp [State.setResultThenFlag]

/-- A register other than VF holds the result if it is VX, and is as before otherwise. -/
theorem State.reg_setResultThenFlag (x y : Reg) (result flag : Byte) :
    (s.setResultThenFlag x result flag).reg y = if y = 0xF#4 then flag else if y = x then result else s.reg y := by
  simp [State.setResultThenFlag]

/-- `setRegsFrom` writes registers only. -/
theorem State.setRegsFrom_eq (k : Nat) (bs : List Byte) : ∃ V, State.setRegsFrom k bs s = { s with V := V } := by
  induction bs generalizing k s with
  | nil => exact ⟨s.V, rfl⟩
  | cons b bs ih =>
    obtain ⟨V, hV⟩ := ih (s.setReg (BitVec.ofNat 4 k) b) (k + 1)
    exact ⟨V, hV⟩

/-- Registers k, k + 1, ... hold the bytes of the list, every other register is as before, while they fit in V0 to VF. -/
theorem State.reg_setRegsFrom (k : Nat) (bs : List Byte) (h : k + bs.length ≤ 16) (y : Reg) :
    (State.setRegsFrom k bs s).reg y = if k ≤ y.toNat then (bs[y.toNat - k]?).getD (s.reg y) else s.reg y := by
  induction bs generalizing k s with
  | nil => simp [State.setRegsFrom]
  | cons b bs ih =>
    have hlen : k + 1 + bs.length ≤ 16 := by simp only [List.length_cons] at h; omega
    have hiff : y = BitVec.ofNat 4 k ↔ y.toNat = k := by
      rw [← BitVec.toNat_inj, BitVec.toNat_ofNat, Nat.mod_eq_of_lt (by simp only [List.length_cons] at h; omega)]
    rw [State.setRegsFrom, ih _ _ hlen, State.reg_setReg]
    simp only [hiff]
    rcases lt_trichotomy y.toNat k with hlt | heq | hgt
    · simp [show ¬ k + 1 ≤ y.toNat by omega, show ¬ k ≤ y.toNat by omega, show y.toNat ≠ k by omega]
    · simp [heq]
    · obtain ⟨d, hd⟩ : ∃ d, y.toNat - k = d + 1 := ⟨y.toNat - k - 1, by omega⟩
      simp [show k + 1 ≤ y.toNat by omega, show k ≤ y.toNat by omega, show y.toNat ≠ k by omega, hd,
        show y.toNat - (k + 1) = d by omega]

/-- Entry k of the list of the first n registers. -/
theorem State.getElem?_firstRegs (n k : Nat) (h : k < n) : (s.firstRegs n)[k]? = some (s.reg (BitVec.ofNat 4 k)) := by
  simp [State.firstRegs, h]

/-- The list of the first n registers has n entries. -/
@[simp] theorem State.length_firstRegs (n : Nat) : (s.firstRegs n).length = n := by simp [State.firstRegs]

end Sys2Proof.Machine
end

