-- ==== Sys2Proof/Laws/Memory.lean ====
section
/-! SUPPORT. The laws of memory: its canonical form is kept, a byte reads as last written, every other byte is as
before; and what the reads and writes of several bytes do, each said once. -/

namespace Sys2Proof.Machine

/-- What an unlisted address reads as, in the words of 20_memory.md R44: the font at FONT_BASE, 0 elsewhere. -/
theorem Memory.unlisted_eq (a : Nat) :
    Memory.unlisted a = if fontBase ≤ a ∧ a < fontBase + 80 then fontByte (a - fontBase) else 0 := by
  have hb : fontBase < 433 := Config.fontBase.isLt
  unfold Memory.unlisted romBase fontBytes
  split
  · rw [if_neg (by omega)]
  · rfl

/-- FONT_BASE + 80 ≤ 0x200 (70_reset_and_hazards.md R136). -/
theorem fontBase_le : fontBase + 80 ≤ 0x200 := by
  have hb : fontBase < 433 := Config.fontBase.isLt
  omega

/-! ## One byte -/

/-- An entry of a canonical memory lies behind every entry before it. -/
theorem Memory.wf_cons {a : Nat} {v : Byte} {m : Memory} :
    Memory.wf ((a, v) :: m) = true ↔
      a < memSize ∧ v ≠ Memory.unlisted a ∧ (∀ c ∈ m, a < c.1) ∧ Memory.wf m = true := by
  simp [Memory.wf, and_assoc]

/-- An address in front of every entry is not listed. -/
theorem Memory.read_of_lt {m : Memory} {a : Nat} (h : ∀ c ∈ m, a < c.1) : m.read a = Memory.unlisted a := by
  induction m with
  | nil => rfl
  | cons c m ih =>
    have hc := h c (by simp)
    simp only [Memory.read]
    rw [if_neg (by omega)]
    exact ih fun d hd => h d (by simp [hd])

theorem Memory.read_consCell {m : Memory} {a : Nat} {v : Byte} (h : ∀ c ∈ m, a < c.1) (b : Nat) :
    (Memory.consCell a v m).read b = if b = a then v else m.read b := by
  unfold Memory.consCell
  split
  · next hv =>
    split
    · next hb => rw [hb, Memory.read_of_lt h, hv]
    · rfl
  · simp [Memory.read]

/-- After a write to a canonical memory the written address reads as the value and every other address as before. -/
theorem Memory.read_write {m : Memory} (hm : Memory.wf m = true) (a : Nat) (v : Byte) (b : Nat) :
    (m.write a v).read b = if b = a then v else m.read b := by
  induction m with
  | nil => simpa [Memory.write] using Memory.read_consCell (m := []) (a := a) (v := v) (by simp) b
  | cons c m ih =>
    obtain ⟨e, u⟩ := c
    obtain ⟨-, -, hlt, hwf⟩ := Memory.wf_cons.mp hm
    simp only [Memory.write]
    split
    · next hae =>
      refine Memory.read_consCell ?_ b
      intro d hd
      rcases List.mem_cons.mp hd with rfl | hd
      · exact hae
      · exact Nat.lt_trans hae (hlt d hd)
    · split
      · next hae =>
        subst hae
        rw [Memory.read_consCell hlt]
        simp only [Memory.read]
        split <;> rfl
      · next hae =>
        simp only [Memory.read, ih hwf]
        split
        · next hbe => rw [if_neg (by omega)]
        · rfl

theorem Memory.mem_consCell {m : Memory} {a : Nat} {v : Byte} {c : Host.Cell} (h : c ∈ Memory.consCell a v m) :
    c.1 = a ∨ c ∈ m := by
  unfold Memory.consCell at h
  split at h
  · exact .inr h
  · rcases List.mem_cons.mp h with rfl | h
    · exact .inl rfl
    · exact .inr h

/-- A write lists no address but its own and those listed before. -/
theorem Memory.mem_write {m : Memory} {a : Nat} {v : Byte} {c : Host.Cell} (h : c ∈ m.write a v) :
    c.1 = a ∨ c ∈ m := by
  induction m with
  | nil => exact Memory.mem_consCell h
  | cons e m ih =>
    simp only [Memory.write] at h
    split at h
    · exact Memory.mem_consCell h
    · split at h
      · rcases Memory.mem_consCell h with h | h
        · exact .inl h
        · exact .inr (List.mem_cons_of_mem _ h)
      · rcases List.mem_cons.mp h with rfl | h
        · exact .inr List.mem_cons_self
        · exact (ih h).imp_right (List.mem_cons_of_mem _)

theorem Memory.wf_consCell {m : Memory} {a : Nat} {v : Byte} (ha : a < memSize) (h : ∀ c ∈ m, a < c.1)
    (hm : Memory.wf m = true) : Memory.wf (Memory.consCell a v m) = true := by
  unfold Memory.consCell
  split
  · exact hm
  · next hv => exact Memory.wf_cons.mpr ⟨ha, hv, h, hm⟩

/-- A write below 0x1000 keeps the canonical form. -/
theorem Memory.wf_write {m : Memory} (hm : Memory.wf m = true) {a : Nat} (ha : a < memSize) (v : Byte) :
    Memory.wf (m.write a v) = true := by
  induction m with
  | nil => exact Memory.wf_consCell ha (by simp) rfl
  | cons c m ih =>
    obtain ⟨e, u⟩ := c
    obtain ⟨he, hu, hlt, hwf⟩ := Memory.wf_cons.mp hm
    simp only [Memory.write]
    split
    · next hae =>
      refine Memory.wf_consCell ha ?_ hm
      intro d hd
      rcases List.mem_cons.mp hd with rfl | hd
      · exact hae
      · exact Nat.lt_trans hae (hlt d hd)
    · split
      · next hae => subst hae; exact Memory.wf_consCell ha hlt hwf
      · next hae hne =>
        refine Memory.wf_cons.mpr ⟨he, hu, ?_, ih hwf⟩
        intro d hd
        rcases Memory.mem_write hd with h | h
        · omega
        · exact hlt d h

/-- A memory built from a function has the canonical form. -/
theorem Memory.wf_ofBytes (f : Nat → Byte) : Memory.wf (Memory.ofBytes f) = true := by
  have key : ∀ l : List Nat, l.Pairwise (· < ·) → (∀ a ∈ l, a < memSize) →
      Memory.wf (l.filterMap fun a => if f a = Memory.unlisted a then none else some (a, f a)) = true := by
    intro l hp hl
    induction l with
    | nil => rfl
    | cons a l ih =>
      obtain ⟨hal, hp⟩ := List.pairwise_cons.mp hp
      have hrest := ih hp fun b hb => hl b (List.mem_cons_of_mem _ hb)
      by_cases hfa : f a = Memory.unlisted a
      · simpa [hfa] using hrest
      · simp only [List.filterMap_cons, hfa, if_false]
        refine Memory.wf_cons.mpr ⟨hl a List.mem_cons_self, hfa, ?_, hrest⟩
        intro c hc
        obtain ⟨b, hb, hbc⟩ := List.mem_filterMap.mp hc
        split at hbc
        · cases hbc
        · cases hbc
          exact hal b hb
  unfold Memory.ofBytes
  exact key _ List.pairwise_lt_range fun a ha => List.mem_range.mp ha

/-! ## Several bytes -/

/-- Consecutive writes to a canonical memory: the addresses from `a` on hold the bytes of the list, the others are as
before, and the form is kept. -/
theorem Memory.writeList_spec (vs : List Byte) (m : Memory) (a : Nat) (hm : Memory.wf m = true)
    (ha : a + vs.length ≤ memSize) :
    Memory.wf (m.writeList a vs) = true ∧
      ∀ b, (m.writeList a vs).read b = if a ≤ b then (vs[b - a]?).getD (m.read b) else m.read b := by
  induction vs generalizing m a with
  | nil => simp [Memory.writeList, hm]
  | cons v vs ih =>
    simp only [List.length_cons] at ha
    obtain ⟨hwf, hrd⟩ := ih (m.write a v) (a + 1) (Memory.wf_write hm (by omega) v) (by omega)
    refine ⟨hwf, fun b => ?_⟩
    rw [Memory.writeList, hrd, Memory.read_write hm]
    rcases lt_trichotomy b a with h | h | h
    · simp [show ¬ a + 1 ≤ b by omega, show ¬ a ≤ b by omega, show b ≠ a by omega]
    · simp [h]
    · obtain ⟨d, hd⟩ : ∃ d, b - a = d + 1 := ⟨b - a - 1, by omega⟩
      simp [show a + 1 ≤ b by omega, show a ≤ b by omega, show b ≠ a by omega, hd, show b - (a + 1) = d by omega]

/-- Writes of several bytes succeed exactly when the last of them lies below 0x1000; otherwise they raise
MemOutOfBounds with 0x1000, given that they begin inside memory. -/
theorem writeBytes_eq (vs : List Byte) (a : Nat) (s : State) (ha : a ≤ memSize) :
    writeBytes a vs s =
      if a + vs.length ≤ memSize then .ok (s.setM (s.M.writeList a vs))
      else .error ⟨.memOutOfBounds, some memSize⟩ := by
  induction vs generalizing a s with
  | nil => simp [writeBytes, Memory.writeList, ha, State.setM]
  | cons v vs ih =>
    simp only [writeBytes, memWrite, List.length_cons]
    by_cases h : memSize ≤ a
    · have hav : a = memSize := by omega
      subst hav
      rw [if_pos (le_refl _), if_neg (by omega)]
    · rw [if_neg h]
      simp only [ih (a + 1) (s.setM (s.M.write a v)) (by omega)]
      by_cases h2 : a + (vs.length + 1) ≤ memSize
      · rw [if_pos (by omega), if_pos h2]
        rfl
      · rw [if_neg (by omega), if_neg h2]

/-- Reads of several bytes succeed exactly when the last of them lies below 0x1000; otherwise they raise
MemOutOfBounds with 0x1000, given that they begin inside memory. -/
theorem readBytes_eq (n a : Nat) (s : State) (ha : a ≤ memSize) :
    readBytes a n s =
      if a + n ≤ memSize then .ok ((List.range n).map fun k => s.M.read (a + k))
      else .error ⟨.memOutOfBounds, some memSize⟩ := by
  induction n generalizing a with
  | zero => simp [readBytes, ha]
  | succ n ih =>
    simp only [readBytes, memRead]
    by_cases h : memSize ≤ a
    · have hav : a = memSize := by omega
      subst hav
      rw [if_pos (le_refl _), if_neg (by omega)]
    · rw [if_neg h]
      simp only [ih (a + 1) (by omega)]
      by_cases h2 : a + (n + 1) ≤ memSize
      · rw [if_pos (by omega), if_pos h2]
        simp [Except.map, List.range_succ_eq_map, Nat.add_assoc, Nat.add_comm 1]
      · rw [if_neg (by omega), if_neg h2]
        rfl

/-- The effective address with offset 0 is I. -/
@[simp] theorem effectiveAddr_zero (s : State) : effectiveAddr s 0 = s.I.toNat := rfl

/-- I lies inside memory, or at most at its end. -/
theorem index_le_memSize (s : State) : s.I.toNat ≤ memSize := by
  have := s.I.isLt
  unfold memSize
  omega

end Sys2Proof.Machine
end

