-- ==== Sys2Proof/Laws/Ops.lean ====
section
/-! SUPPORT. What each shared operation can do, said once. -/

namespace Sys2Proof.Machine

/-! ## Taking a fault -/

@[simp] theorem takeFault_status (e : Raised) (a : Word) (w : Option Word) (s : State) :
    (takeFault e a w s).status = .halted ⟨e.kind, e.info, a, w⟩ := rfl

@[simp] theorem takeFault_inputs (e : Raised) (a : Word) (w : Option Word) (s : State) :
    (takeFault e a w s).inputs = s.inputs := rfl

/-- A fault leaves memory in its canonical form. -/
theorem takeFault_wf (e : Raised) (a : Word) (w : Option Word) (s : State) :
    Memory.wf (takeFault e a w s).M = true := by
  simp only [takeFault, loseAll]
  exact Memory.wf_ofBytes (Config.remains s.freeCount).byteAt

/-- A fault leaves at most 12 entries on the stack. -/
theorem takeFault_stack (e : Raised) (a : Word) (w : Option Word) (s : State) :
    (takeFault e a w s).stack.length ≤ 12 := by
  have h := (Config.remains s.freeCount).depth.isLt
  simp only [takeFault, loseAll, List.length_take, Vector.length_toList]
  omega

/-- What a fault leaves does not depend on anything but the status, the host's steps and the count of free values. -/
theorem takeFault_congr (e : Raised) (a : Word) (w : Option Word) {s t : State} (hi : s.inputs = t.inputs)
    (hf : s.freeCount = t.freeCount) : takeFault e a w s = takeFault e a w t := by
  simp [takeFault, loseAll, hi, hf]

/-- `finish` always answers a next state: the one the primitives leave, or the halted one. -/
theorem finish_cases {i : Instr} {s t : State} {r : Except Raised State} (h : finish i s r = .next t) :
    r = .ok t ∨ ∃ e, r = .error e ∧ t = takeFault e (s.PC - 2) (some (encode i)) s := by
  cases r with
  | ok u => exact .inl (by cases h; rfl)
  | error e => exact .inr ⟨e, rfl, by cases h; rfl⟩

@[simp] theorem finish_ok (i : Instr) (s t : State) : finish i s (.ok t) = .next t := rfl

@[simp] theorem finish_error (i : Instr) (s : State) (e : Raised) :
    finish i s (.error e) = .next (takeFault e (s.PC - 2) (some (encode i)) s) := rfl

/-! ## Address register, stack, fetch, random byte -/

/-- A write of I: in range it is the value, above it is IndexOutOfRange with the value. -/
theorem writeIndex_cases (v : Nat) (s : State) :
    (v ≤ 0xFFF ∧ writeIndex v s = .ok (s.setI (BitVec.ofNat 12 v))) ∨
    (0xFFF < v ∧ writeIndex v s = .error ⟨.indexOutOfRange, some v⟩) := by
  unfold writeIndex indexMax
  by_cases h : 0xFFF < v
  · exact .inr ⟨h, if_pos h⟩
  · exact .inl ⟨by omega, if_neg h⟩

/-- A push: with room it appends, with 12 entries it is StackOverflow. -/
theorem push_cases (v : Word) (s : State) :
    (s.stack.length < 12 ∧ push v s = .ok (s.setStack (s.stack ++ [v]))) ∨
    (12 ≤ s.stack.length ∧ push v s = .error ⟨.stackOverflow, none⟩) := by
  unfold push stackCap
  by_cases h : 12 ≤ s.stack.length
  · exact .inr ⟨h, if_pos h⟩
  · exact .inl ⟨by omega, if_neg h⟩

/-- A pop: the last entry pushed and the rest, or StackUnderflow with none. -/
theorem pop_cases (s : State) :
    (∃ l v, s.stack = l ++ [v] ∧ pop s = .ok (v, s.setStack l)) ∨
    (s.stack = [] ∧ pop s = .error ⟨.stackUnderflow, none⟩) := by
  rcases List.eq_nil_or_concat s.stack with h | ⟨l, v, h⟩
  · exact .inr ⟨h, by simp [pop, h]⟩
  · rw [List.concat_eq_append] at h
    exact .inl ⟨l, v, h, by simp [pop, h]⟩

/-- A fetch: below 0xFFF the two bytes, high one first; from there on MemOutOfBounds. -/
theorem fetch16_cases (a : Nat) (s : State) :
    (a + 1 < 0x1000 ∧ fetch16 a s = .ok (wordOfBytes (s.M.read a) (s.M.read (a + 1)))) ∨
    (0x1000 ≤ a + 1 ∧ fetch16 a s = .error ⟨.memOutOfBounds, some (max a 0x1000)⟩) := by
  unfold fetch16 memSize
  by_cases h : 0x1000 ≤ a + 1
  · exact .inr ⟨h, if_pos h⟩
  · exact .inl ⟨by omega, if_neg h⟩

/-- The random byte is the one the host sent, or a free value; nothing changes but the count of free values. -/
theorem randomByte_cases (s : State) :
    (∃ r, s.rndIn = some r ∧ randomByte s = (r, s)) ∨
    (s.rndIn = none ∧ randomByte s = (Config.randomByte s.freeCount, s.countFree)) := by
  unfold randomByte
  cases h : s.rndIn with
  | none => exact .inr ⟨rfl, rfl⟩
  | some r => exact .inl ⟨r, rfl, rfl⟩

/-! ## Grids -/

/-- A cell reads as last written, every other cell as before. -/
@[simp] theorem gridCell_gridSet {α : Type} (g : Grid α) (x x' : Fin 64) (y y' : Fin 32) (v : α) :
    gridCell (gridSet g x y v) x' y' = if x' = x ∧ y' = y then v else gridCell g x' y' := by
  unfold gridCell gridSet Vector.get
  simp only [Fin.val_cast]
  by_cases hx : x' = x
  · subst hx
    by_cases hy : y' = y
    · subst hy; simp
    · have : y.val ≠ y'.val := fun h => hy (Fin.ext h.symm)
      simp [hy, this]
  · have : x.val ≠ x'.val := fun h => hx (Fin.ext h.symm)
    simp [hx, this]

/-- The cells of a grid built from a function. -/
@[simp] theorem gridCell_gridOf {α : Type} (f : Fin 64 → Fin 32 → α) (x : Fin 64) (y : Fin 32) :
    gridCell (gridOf f) x y = f x y := by
  simp [gridCell, gridOf, Vector.get_eq_getElem]

/-- Two grids with the same cells are the same grid. -/
theorem grid_ext {α : Type} {g h : Grid α} (hc : ∀ x y, gridCell g x y = gridCell h x y) : g = h := by
  apply Vector.ext
  intro i hi
  apply Vector.ext
  intro j hj
  exact hc ⟨i, hi⟩ ⟨j, hj⟩

end Sys2Proof.Machine
end

