-- ==== Sys2Proof/Laws/Display.lean ====
section
/-! SUPPORT. What the blitter does, pixel by pixel, said once (45_display.md R110). -/

namespace Sys2Proof.Machine

/-- `d'` is `d` with exactly the pixels of `H` toggled: each of them that turns on glows at 255, and the collision
accumulator is set if one of them was on. -/
def Toggled (H : Fin 64 → Fin 32 → Prop) (d d' : Blit) : Prop :=
  (∀ px py, H px py → gridCell d'.lit px py = (!gridCell d.lit px py) ∧
    gridCell d'.phos px py = if gridCell d.lit px py = true then gridCell d.phos px py else 255) ∧
  (∀ px py, ¬H px py → gridCell d'.lit px py = gridCell d.lit px py ∧ gridCell d'.phos px py = gridCell d.phos px py) ∧
  (d'.coll = true ↔ d.coll = true ∨ ∃ px py, H px py ∧ gridCell d.lit px py = true)

/-- Nothing toggled. -/
theorem toggled_none {H : Fin 64 → Fin 32 → Prop} (h : ∀ px py, ¬H px py) (d : Blit) : Toggled H d d :=
  ⟨fun px py hH => absurd hH (h px py), fun _ _ _ => ⟨rfl, rfl⟩, by simp [h]⟩

/-- The same pixels said otherwise. -/
theorem Toggled.congr {H G : Fin 64 → Fin 32 → Prop} {d d' : Blit} (h : Toggled H d d')
    (hHG : ∀ px py, H px py ↔ G px py) : Toggled G d d' := by
  rwa [show H = G from funext fun px => funext fun py => propext (hHG px py)] at h

/-- Two blits on different pixels, one after the other. -/
theorem Toggled.trans {H G : Fin 64 → Fin 32 → Prop} {d d₁ d₂ : Blit} (h₁ : Toggled H d d₁) (h₂ : Toggled G d₁ d₂)
    (hdis : ∀ px py, H px py → ¬G px py) : Toggled (fun px py => H px py ∨ G px py) d d₂ := by
  obtain ⟨a₁, b₁, c₁⟩ := h₁
  obtain ⟨a₂, b₂, c₂⟩ := h₂
  refine ⟨fun px py h => ?_, fun px py h => ?_, ?_⟩
  · rcases h with h | h
    · obtain ⟨e, f⟩ := b₂ px py (hdis px py h)
      rw [e, f]
      exact a₁ px py h
    · obtain ⟨e, f⟩ := b₁ px py fun hH => hdis px py hH h
      rw [← e, ← f]
      exact a₂ px py h
  · obtain ⟨hH, hG⟩ := not_or.mp h
    obtain ⟨e, f⟩ := b₂ px py hG
    rw [e, f]
    exact b₁ px py hH
  · rw [c₂, c₁]
    constructor
    · rintro ((h | ⟨px, py, h, hl⟩) | ⟨px, py, h, hl⟩)
      · exact .inl h
      · exact .inr ⟨px, py, .inl h, hl⟩
      · exact .inr ⟨px, py, .inr h, by rwa [← (b₁ px py fun hH => hdis px py hH h).1]⟩
    · rintro (h | ⟨px, py, h | h, hl⟩)
      · exact .inl (.inl h)
      · exact .inl (.inr ⟨px, py, h, hl⟩)
      · exact .inr ⟨px, py, h, by rwa [(b₁ px py fun hH => hdis px py hH h).1]⟩

/-- One set sprite bit toggles its pixel. -/
theorem togglePixel_toggled (qx : Fin 64) (qy : Fin 32) (d : Blit) :
    Toggled (fun px py => px = qx ∧ py = qy) d (togglePixel qx qy d) := by
  refine ⟨?_, fun px py h => ?_, ?_⟩
  · rintro px py ⟨rfl, rfl⟩
    unfold togglePixel
    cases gridCell d.lit px py <;> simp [phosphorMax]
  · unfold togglePixel
    cases gridCell d.lit qx qy <;> simp [h]
  · simp only [togglePixel, Bool.or_eq_true]
    constructor
    · rintro (h | h)
      · exact .inl h
      · exact .inr ⟨qx, qy, ⟨rfl, rfl⟩, h⟩
    · rintro (h | ⟨px, py, ⟨rfl, rfl⟩, h⟩)
      · exact .inl h
      · exact .inr h

/-- The columns from c on of one sprite row toggle the pixels their set bits fall on. -/
theorem drawColumns_toggled (x y : Byte) (r : Nat) (row : Byte) (c k : Nat) (hk : c + k ≤ 8) (d : Blit) :
    Toggled (fun px py => ∃ j, c ≤ j ∧ j < c + k ∧ spriteBit row j = true ∧ (x.toNat + j) % 64 = px.val ∧
      (y.toNat + r) % 32 = py.val) d (drawColumns x y r row c k d) := by
  induction k generalizing c d with
  | zero => exact toggled_none (fun px py ⟨j, h₁, h₂, _⟩ => by omega) d
  | succ k ih =>
    have hrest := ih (c + 1) (by omega)
      (if spriteBit row c then togglePixel (Fin.ofNat 64 (x.toNat + c)) (Fin.ofNat 32 (y.toNat + r)) d else d)
    have hone : Toggled (fun px py => spriteBit row c = true ∧ (x.toNat + c) % 64 = px.val ∧
        (y.toNat + r) % 32 = py.val) d
        (if spriteBit row c then togglePixel (Fin.ofNat 64 (x.toNat + c)) (Fin.ofNat 32 (y.toNat + r)) d else d) := by
      split
      · next hb =>
        refine (togglePixel_toggled _ _ d).congr fun px py => ?_
        simp only [hb, true_and, Fin.ext_iff, Fin.val_ofNat]
        exact and_congr eq_comm eq_comm
      · next hb => exact toggled_none (fun px py h => hb h.1) d
    refine (hone.trans hrest ?_).congr fun px py => ?_
    · rintro px py ⟨-, hx, -⟩ ⟨j, h₁, h₂, -, hx', -⟩
      omega
    · constructor
      · rintro (⟨hb, hx, hy⟩ | ⟨j, h₁, h₂, h⟩)
        · exact ⟨c, by omega, by omega, hb, hx, hy⟩
        · exact ⟨j, by omega, by omega, h⟩
      · rintro ⟨j, h₁, h₂, hb, hx, hy⟩
        rcases Nat.eq_or_lt_of_le h₁ with rfl | h
        · exact .inl ⟨hb, hx, hy⟩
        · exact .inr ⟨j, h, by omega, hb, hx, hy⟩

/-- The rows of a sprite, the first of them row r0, toggle the pixels their set bits fall on. -/
theorem drawRows_toggled (x y : Byte) (rows : List Byte) (r0 : Nat) (hr : r0 + rows.length ≤ 32) (d : Blit) :
    Toggled (fun px py => ∃ r row, rows[r]? = some row ∧ ∃ c, c < 8 ∧ spriteBit row c = true ∧
      (x.toNat + c) % 64 = px.val ∧ (y.toNat + (r0 + r)) % 32 = py.val) d (drawRows x y r0 rows d) := by
  induction rows generalizing r0 d with
  | nil => exact toggled_none (fun px py ⟨r, row, h, _⟩ => by simp at h) d
  | cons row rows ih =>
    simp only [List.length_cons] at hr
    have hone := drawColumns_toggled x y r0 row 0 8 (by omega) d
    have hrest := ih (r0 + 1) (by omega) (drawColumns x y r0 row 0 8 d)
    refine (hone.trans hrest ?_).congr fun px py => ?_
    · rintro px py ⟨j, -, -, -, -, hy⟩ ⟨r, row', hrow, c, -, -, -, hy'⟩
      have := (List.getElem?_eq_some_iff.mp hrow).1
      omega
    · constructor
      · rintro (⟨j, -, h₂, hb, hx, hy⟩ | ⟨r, row', hrow, c, hc, hb, hx, hy⟩)
        · exact ⟨0, row, by simp, j, by omega, hb, hx, hy⟩
        · exact ⟨r + 1, row', by simpa using hrow, c, hc, hb, hx,
            by rwa [show r0 + (r + 1) = r0 + 1 + r by omega]⟩
      · rintro ⟨r, row', hrow, c, hc, hb, hx, hy⟩
        cases r with
        | zero =>
          obtain rfl : row = row' := by simpa using hrow
          exact .inl ⟨c, by omega, by omega, hb, hx, hy⟩
        | succ r =>
          exact .inr ⟨r, row', by simpa using hrow, c, hc, hb, hx,
            by rwa [show r0 + 1 + r = r0 + (r + 1) by omega]⟩

/-- `draw` toggles exactly the pixels that the set bits of its rows fall on, for at most 32 rows. -/
theorem draw_toggled (x y : Byte) (rows : List Byte) (hr : rows.length ≤ 32) (s : State) :
    Toggled (fun px py => ∃ r row, rows[r]? = some row ∧ ∃ c, c < 8 ∧ spriteBit row c = true ∧
      (x.toNat + c) % 64 = px.val ∧ (y.toNat + r) % 32 = py.val) ⟨s.lit, s.phos, false⟩ (draw x y rows s) := by
  have h := drawRows_toggled x y rows 0 (by omega) ⟨s.lit, s.phos, false⟩
  simp only [Nat.zero_add] at h
  exact h

/-- A blit's pixels and its collision depend on the pixels it starts from and not on the phosphor (45_display.md R116). -/
def Blit.SamePixels (d e : Blit) : Prop := d.lit = e.lit ∧ d.coll = e.coll

theorem togglePixel_samePixels (px : Fin 64) (py : Fin 32) {d e : Blit} (h : d.SamePixels e) :
    (togglePixel px py d).SamePixels (togglePixel px py e) := by
  simp [Blit.SamePixels, togglePixel, h.1, h.2]

theorem drawColumns_samePixels (x y : Byte) (r : Nat) (row : Byte) : ∀ (k c : Nat) {d e : Blit}, d.SamePixels e →
    (drawColumns x y r row c k d).SamePixels (drawColumns x y r row c k e) := by
  intro k
  induction k with
  | zero => intro c d e h; exact h
  | succ k ih =>
    intro c d e h
    simp only [drawColumns]
    split
    · exact ih _ (togglePixel_samePixels _ _ h)
    · exact ih _ h

theorem drawRows_samePixels (x y : Byte) : ∀ (rows : List Byte) (r : Nat) {d e : Blit}, d.SamePixels e →
    (drawRows x y r rows d).SamePixels (drawRows x y r rows e) := by
  intro rows
  induction rows with
  | nil => intro r d e h; exact h
  | cons row rows ih => intro r d e h; exact ih _ (drawColumns_samePixels x y r row 8 0 h)

end Sys2Proof.Machine
end

