-- ==== Sys2Proof/Laws/Encoding.lean ====
section
/-! SUPPORT. The fields of a word and the words of the formats, as numbers and as each other's inverses
(30_encoding.md R53, R54). -/

namespace Sys2Proof

/-- A concatenation as a number. -/
theorem toNat_append_eq {m n : Nat} (x : BitVec m) (y : BitVec n) : (x ++ y).toNat = x.toNat * 2 ^ n + y.toNat := by
  rw [BitVec.toNat_append, ← Nat.shiftLeft_add_eq_or_of_lt y.isLt, Nat.shiftLeft_eq]

/-! ## Words of the formats as numbers -/

theorem toNat_formatNNN (c : BitVec 4) (nnn : Addr) : (formatNNN c nnn).toNat = c.toNat * 4096 + nnn.toNat :=
  toNat_append_eq c nnn

theorem toNat_formatXNN (c : BitVec 4) (x : Reg) (nn : Byte) :
    (formatXNN c x nn).toNat = c.toNat * 4096 + x.toNat * 256 + nn.toNat := by
  unfold formatXNN
  rw [toNat_append_eq, toNat_append_eq]
  omega

theorem toNat_formatXYN (c : BitVec 4) (x y : Reg) (n : BitVec 4) :
    (formatXYN c x y n).toNat = c.toNat * 4096 + x.toNat * 256 + y.toNat * 16 + n.toNat := by
  unfold formatXYN
  rw [toNat_append_eq, toNat_append_eq, toNat_append_eq]
  omega

theorem toNat_wordOfBytes (hi lo : Byte) : (wordOfBytes hi lo).toNat = hi.toNat * 256 + lo.toNat :=
  toNat_append_eq hi lo

/-! ## Fields as numbers -/

theorem toNat_classOf (w : Word) : (classOf w).toNat = w.toNat / 4096 := by
  have := w.isLt
  simp only [classOf, BitVec.extractLsb'_toNat, Nat.shiftRight_eq_div_pow]
  omega

theorem toNat_xOf (w : Word) : (xOf w).toNat = w.toNat / 256 % 16 := by simp [xOf, Nat.shiftRight_eq_div_pow]

theorem toNat_yOf (w : Word) : (yOf w).toNat = w.toNat / 16 % 16 := by simp [yOf, Nat.shiftRight_eq_div_pow]

theorem toNat_nOf (w : Word) : (nOf w).toNat = w.toNat % 16 := by simp [nOf]

theorem toNat_nnOf (w : Word) : (nnOf w).toNat = w.toNat % 256 := by simp [nnOf]

theorem toNat_nnnOf (w : Word) : (nnnOf w).toNat = w.toNat % 4096 := by simp [nnnOf]

/-! ## Fields of the formats -/

@[simp] theorem classOf_formatNNN (c : BitVec 4) (nnn : Addr) : classOf (formatNNN c nnn) = c :=
  BitVec.eq_of_toNat_eq (by rw [toNat_classOf, toNat_formatNNN]; omega)

@[simp] theorem nnnOf_formatNNN (c : BitVec 4) (nnn : Addr) : nnnOf (formatNNN c nnn) = nnn :=
  BitVec.eq_of_toNat_eq (by rw [toNat_nnnOf, toNat_formatNNN]; omega)

@[simp] theorem classOf_formatXNN (c : BitVec 4) (x : Reg) (nn : Byte) : classOf (formatXNN c x nn) = c :=
  BitVec.eq_of_toNat_eq (by rw [toNat_classOf, toNat_formatXNN]; omega)

@[simp] theorem xOf_formatXNN (c : BitVec 4) (x : Reg) (nn : Byte) : xOf (formatXNN c x nn) = x :=
  BitVec.eq_of_toNat_eq (by rw [toNat_xOf, toNat_formatXNN]; omega)

@[simp] theorem nnOf_formatXNN (c : BitVec 4) (x : Reg) (nn : Byte) : nnOf (formatXNN c x nn) = nn :=
  BitVec.eq_of_toNat_eq (by rw [toNat_nnOf, toNat_formatXNN]; omega)

@[simp] theorem classOf_formatXYN (c : BitVec 4) (x y : Reg) (n : BitVec 4) : classOf (formatXYN c x y n) = c :=
  BitVec.eq_of_toNat_eq (by rw [toNat_classOf, toNat_formatXYN]; omega)

@[simp] theorem xOf_formatXYN (c : BitVec 4) (x y : Reg) (n : BitVec 4) : xOf (formatXYN c x y n) = x :=
  BitVec.eq_of_toNat_eq (by rw [toNat_xOf, toNat_formatXYN]; omega)

@[simp] theorem yOf_formatXYN (c : BitVec 4) (x y : Reg) (n : BitVec 4) : yOf (formatXYN c x y n) = y :=
  BitVec.eq_of_toNat_eq (by rw [toNat_yOf, toNat_formatXYN]; omega)

@[simp] theorem nOf_formatXYN (c : BitVec 4) (x y : Reg) (n : BitVec 4) : nOf (formatXYN c x y n) = n :=
  BitVec.eq_of_toNat_eq (by rw [toNat_nOf, toNat_formatXYN]; omega)

/-! ## A word is its fields -/

@[simp] theorem formatNNN_fields (w : Word) : formatNNN (classOf w) (nnnOf w) = w :=
  BitVec.eq_of_toNat_eq (by rw [toNat_formatNNN, toNat_classOf, toNat_nnnOf]; omega)

@[simp] theorem formatXNN_fields (w : Word) : formatXNN (classOf w) (xOf w) (nnOf w) = w :=
  BitVec.eq_of_toNat_eq (by rw [toNat_formatXNN, toNat_classOf, toNat_xOf, toNat_nnOf]; omega)

@[simp] theorem formatXYN_fields (w : Word) : formatXYN (classOf w) (xOf w) (yOf w) (nOf w) = w :=
  BitVec.eq_of_toNat_eq (by rw [toNat_formatXYN, toNat_classOf, toNat_xOf, toNat_yOf, toNat_nOf]; omega)

/-- The two bytes of a word, the high one first, are the word again. -/
@[simp] theorem wordOfBytes_bytes (w : Word) : wordOfBytes (highByte w) (lowByte w) = w := by
  apply BitVec.eq_of_toNat_eq
  have := w.isLt
  rw [toNat_wordOfBytes]
  simp only [highByte, lowByte, BitVec.extractLsb'_toNat, Nat.shiftRight_eq_div_pow]
  omega

/-! ## The three masks of the opcode table -/

theorem and_ones4 (c : BitVec 4) : c &&& 0xF#4 = c := BitVec.and_allOnes

theorem and_ones8 (c : BitVec 8) : c &&& 0xFF#8 = c := BitVec.and_allOnes

/-- Mask 0xF000 keeps the class. -/
theorem and_mask_class (w : Word) : w &&& 0xF000#16 = formatNNN (classOf w) 0 := by
  rw [← formatNNN_fields w, classOf_formatNNN]
  change (classOf w ++ nnnOf w : BitVec (4 + 12)) &&& (0xF#4 ++ 0#12) = classOf w ++ 0#12
  rw [BitVec.and_append, and_ones4, BitVec.and_zero]

/-- Mask 0xF00F keeps the class and N. -/
theorem and_mask_class_n (w : Word) : w &&& 0xF00F#16 = formatXYN (classOf w) 0 0 (nOf w) := by
  rw [← formatXYN_fields w, classOf_formatXYN, nOf_formatXYN]
  change (classOf w ++ xOf w ++ yOf w ++ nOf w : BitVec (4 + 4 + 4 + 4)) &&& (0xF#4 ++ 0#4 ++ 0#4 ++ 0xF#4) =
    classOf w ++ 0#4 ++ 0#4 ++ nOf w
  simp only [BitVec.and_append, and_ones4, BitVec.and_zero]

/-- Mask 0xF0FF keeps the class and NN. -/
theorem and_mask_class_nn (w : Word) : w &&& 0xF0FF#16 = formatXNN (classOf w) 0 (nnOf w) := by
  rw [← formatXNN_fields w, classOf_formatXNN, nnOf_formatXNN]
  change (classOf w ++ xOf w ++ nnOf w : BitVec (4 + 4 + 8)) &&& (0xF#4 ++ 0#4 ++ 0xFF#8) =
    classOf w ++ 0#4 ++ nnOf w
  simp only [BitVec.and_append, and_ones4, and_ones8, BitVec.and_zero]

end Sys2Proof
end

