-- ==== Sys2Proof/Laws/Keypad.lean ====
section
/-! SUPPORT. What the key-wait machine does, said once (44_keypad.md R104). -/

namespace Sys2Proof.Machine

/-- The smallest key is down, and none below it is. -/
theorem smallestKey_eq_some {p : BitVec 16} {k : Key} :
    smallestKey p = some k ↔ p.getLsbD k.toNat = true ∧ ∀ j, j < k.toNat → p.getLsbD j = false := by
  unfold smallestKey
  constructor
  · intro h
    obtain ⟨n, hn, rfl⟩ := Option.map_eq_some_iff.mp h
    obtain ⟨hlt, hp, hmin⟩ := List.find?_range_eq_some.mp hn
    have h16 : n < 16 := List.mem_range.mp hp
    rw [BitVec.toNat_ofNat, Nat.mod_eq_of_lt h16]
    exact ⟨hlt, fun j hj => by simpa using hmin j hj⟩
  · rintro ⟨hp, hmin⟩
    refine Option.map_eq_some_iff.mpr ⟨k.toNat, List.find?_range_eq_some.mpr ⟨hp, ?_, ?_⟩, ?_⟩
    · exact List.mem_range.mpr k.isLt
    · intro j hj
      simp [hmin j hj]
    · simp

/-- There is no smallest key exactly when no key is down. -/
theorem smallestKey_eq_none {p : BitVec 16} : smallestKey p = none ↔ p = 0 := by
  unfold smallestKey
  rw [Option.map_eq_none_iff, List.find?_eq_none]
  constructor
  · intro h
    apply BitVec.eq_of_getLsbD_eq
    intro i hi
    simpa using h i (List.mem_range.mpr hi)
  · rintro rfl k -
    simp

/-- One poll: pending with the wait armed or a key captured, pending with the captured key still down, or resolved.
Nothing but `wait` changes. -/
theorem poll_cases (s : State) :
    ((s.wait = .idle ∨ s.wait = .awaitingPress) ∧ s.pressed = 0 ∧ poll s = (s.setWait .awaitingPress, .pending)) ∨
    (∃ k, (s.wait = .idle ∨ s.wait = .awaitingPress) ∧ smallestKey s.pressed = some k ∧
      poll s = (s.setWait (.awaitingRelease k), .pending)) ∨
    (∃ k, s.wait = .awaitingRelease k ∧ keyDown k s = true ∧ poll s = (s, .pending)) ∨
    (∃ k, s.wait = .awaitingRelease k ∧ keyDown k s = false ∧ poll s = (s.setWait .idle, .resolved k)) := by
  have hcap : ∀ h : s.wait = .idle ∨ s.wait = .awaitingPress, poll s = (pollCapture s, .pending) := by
    rintro (h | h) <;> simp [poll, h]
  cases hw : s.wait with
  | awaitingRelease k =>
    cases hk : keyDown k s with
    | true => exact .inr (.inr (.inl ⟨k, rfl, hk, by simp [poll, hw, hk]⟩))
    | false => exact .inr (.inr (.inr ⟨k, rfl, hk, by simp [poll, hw, hk]⟩))
  | idle =>
    cases hs : smallestKey s.pressed with
    | none => exact .inl ⟨.inl rfl, smallestKey_eq_none.mp hs, by rw [hcap (.inl hw), pollCapture, hs]⟩
    | some k => exact .inr (.inl ⟨k, .inl rfl, rfl, by rw [hcap (.inl hw), pollCapture, hs]⟩)
  | awaitingPress =>
    cases hs : smallestKey s.pressed with
    | none => exact .inl ⟨.inr rfl, smallestKey_eq_none.mp hs, by rw [hcap (.inr hw), pollCapture, hs]⟩
    | some k => exact .inr (.inl ⟨k, .inr rfl, rfl, by rw [hcap (.inr hw), pollCapture, hs]⟩)

end Sys2Proof.Machine
end

