-- ==== Sys2Proof/Laws/Exec.lean ====
section
/-! SUPPORT. What each instruction that can fault or has several cases answers, said once, and the one case split every
proof about `exec` shares: a fault was taken, or the status is as before. -/

namespace Sys2Proof.Machine

/-- 00EE: return, or StackUnderflow. -/
theorem execRet_cases (s : State) :
    (∃ l v, s.stack = l ++ [v] ∧ execRet s = .next ((s.setStack l).setPC v)) ∨
    (s.stack = [] ∧ execRet s =
      .next (takeFault ⟨.stackUnderflow, none⟩ (s.PC - 2) (some (encode .ret)) s)) := by
  rcases pop_cases s with ⟨l, v, h, e⟩ | ⟨h, e⟩
  · exact .inl ⟨l, v, h, by rw [execRet, e]; rfl⟩
  · exact .inr ⟨h, by rw [execRet, e]; rfl⟩

/-- 2NNN: call, or StackOverflow. -/
theorem execCall_cases (nnn : Addr) (s : State) :
    (s.stack.length < 12 ∧ execCall nnn s = .next ((s.setStack (s.stack ++ [s.PC])).setPC (targetOf nnn))) ∨
    (12 ≤ s.stack.length ∧ execCall nnn s =
      .next (takeFault ⟨.stackOverflow, none⟩ (s.PC - 2) (some (encode (.call nnn))) s)) := by
  rcases push_cases s.PC s with ⟨h, e⟩ | ⟨h, e⟩
  · exact .inl ⟨h, by rw [execCall, e]; rfl⟩
  · exact .inr ⟨h, by rw [execCall, e]; rfl⟩

/-- FX1E: the sum, or IndexOutOfRange with it. -/
theorem execAddI_cases (x : Reg) (s : State) :
    (s.I.toNat + (s.reg x).toNat ≤ 0xFFF ∧
      execAddI x s = .next (s.setI (BitVec.ofNat 12 (s.I.toNat + (s.reg x).toNat)))) ∨
    (0xFFF < s.I.toNat + (s.reg x).toNat ∧ execAddI x s =
      .next (takeFault ⟨.indexOutOfRange, some (s.I.toNat + (s.reg x).toNat)⟩ (s.PC - 2) (some (encode (.addI x))) s)) := by
  rcases writeIndex_cases (s.I.toNat + (s.reg x).toNat) s with ⟨h, e⟩ | ⟨h, e⟩
  · exact .inl ⟨h, by rw [execAddI, e]; rfl⟩
  · exact .inr ⟨h, by rw [execAddI, e]; rfl⟩

/-- FX33: three digits stored, or MemOutOfBounds with 0x1000. -/
theorem execLdB_cases (x : Reg) (s : State) :
    (s.I.toNat + 2 ≤ 0xFFF ∧
      execLdB x s = .next (s.setM (s.M.writeList s.I.toNat (bcdDigits (s.reg x))))) ∨
    (0xFFF < s.I.toNat + 2 ∧ execLdB x s =
      .next (takeFault ⟨.memOutOfBounds, some 0x1000⟩ (s.PC - 2) (some (encode (.ldB x))) s)) := by
  have e := writeBytes_eq (bcdDigits (s.reg x)) s.I.toNat s (index_le_memSize s)
  have hl : (bcdDigits (s.reg x)).length = 3 := rfl
  rw [hl] at e
  simp only [execLdB, effectiveAddr_zero, e]
  unfold memSize
  by_cases h : s.I.toNat + 3 ≤ 0x1000
  · exact .inl ⟨by omega, by rw [if_pos h]; rfl⟩
  · exact .inr ⟨by omega, by rw [if_neg h]; rfl⟩

/-- FX55: V0 to VX stored, or MemOutOfBounds with 0x1000. -/
theorem execStRegs_cases (x : Reg) (s : State) :
    (s.I.toNat + x.toNat ≤ 0xFFF ∧
      execStRegs x s = .next (s.setM (s.M.writeList s.I.toNat (s.firstRegs (x.toNat + 1))))) ∨
    (0xFFF < s.I.toNat + x.toNat ∧ execStRegs x s =
      .next (takeFault ⟨.memOutOfBounds, some 0x1000⟩ (s.PC - 2) (some (encode (.stRegs x))) s)) := by
  have e := writeBytes_eq (s.firstRegs (x.toNat + 1)) s.I.toNat s (index_le_memSize s)
  rw [State.length_firstRegs] at e
  simp only [execStRegs, effectiveAddr_zero, rangeCount, e]
  unfold memSize
  by_cases h : s.I.toNat + (x.toNat + 1) ≤ 0x1000
  · exact .inl ⟨by omega, by rw [if_pos h]; rfl⟩
  · exact .inr ⟨by omega, by rw [if_neg h]; rfl⟩

/-- FX65: V0 to VX loaded, or MemOutOfBounds with 0x1000. -/
theorem execLdRegs_cases (x : Reg) (s : State) :
    (s.I.toNat + x.toNat ≤ 0xFFF ∧ execLdRegs x s =
      .next (State.setRegsFrom 0 ((List.range (x.toNat + 1)).map fun k => s.M.read (s.I.toNat + k)) s)) ∨
    (0xFFF < s.I.toNat + x.toNat ∧ execLdRegs x s =
      .next (takeFault ⟨.memOutOfBounds, some 0x1000⟩ (s.PC - 2) (some (encode (.ldRegs x))) s)) := by
  have e := readBytes_eq (x.toNat + 1) s.I.toNat s (index_le_memSize s)
  simp only [execLdRegs, effectiveAddr_zero, rangeCount, e]
  unfold memSize
  by_cases h : s.I.toNat + (x.toNat + 1) ≤ 0x1000
  · exact .inl ⟨by omega, by rw [if_pos h]; rfl⟩
  · exact .inr ⟨by omega, by rw [if_neg h]; rfl⟩

/-- DXYN: the sprite at I drawn, or MemOutOfBounds with 0x1000. -/
theorem execDrw_cases (x y : Reg) (n : BitVec 4) (s : State) :
    (s.I.toNat + n.toNat ≤ 0x1000 ∧ execDrw x y n s = .next (s.afterBlit
      (draw (s.reg x) (s.reg y) ((List.range n.toNat).map fun k => s.M.read (s.I.toNat + k)) s))) ∨
    (0x1000 < s.I.toNat + n.toNat ∧ execDrw x y n s =
      .next (takeFault ⟨.memOutOfBounds, some 0x1000⟩ (s.PC - 2) (some (encode (.drw x y n))) s)) := by
  have e := readBytes_eq n.toNat s.I.toNat s (index_le_memSize s)
  simp only [execDrw, effectiveAddr_zero, e]
  unfold memSize
  by_cases h : s.I.toNat + n.toNat ≤ 0x1000
  · exact .inl ⟨h, by rw [if_pos h]; rfl⟩
  · exact .inr ⟨by omega, by rw [if_neg h]; rfl⟩

/-- CXNN: the byte the host sent, or a free value, masked. -/
theorem execRnd_cases (x : Reg) (nn : Byte) (s : State) :
    (∃ r, s.rndIn = some r ∧ execRnd x nn s = .next (s.setReg x (r &&& nn))) ∨
    (s.rndIn = none ∧
      execRnd x nn s = .next (s.countFree.setReg x (Config.randomByte s.freeCount &&& nn))) := by
  rcases randomByte_cases s with ⟨r, h, e⟩ | ⟨h, e⟩
  · exact .inl ⟨r, h, by rw [execRnd, e]⟩
  · exact .inr ⟨h, by rw [execRnd, e]⟩

/-- FX0A: pending, with PC rewound, or resolved. -/
theorem execLdVxK_cases (x : Reg) (s : State) :
    ((s.wait = .idle ∨ s.wait = .awaitingPress) ∧ s.pressed = 0 ∧
      execLdVxK x s = .next ((s.setWait .awaitingPress).setPC (s.PC - 2))) ∨
    (∃ k, (s.wait = .idle ∨ s.wait = .awaitingPress) ∧ smallestKey s.pressed = some k ∧
      execLdVxK x s = .next ((s.setWait (.awaitingRelease k)).setPC (s.PC - 2))) ∨
    (∃ k, s.wait = .awaitingRelease k ∧ keyDown k s = true ∧ execLdVxK x s = .next (s.setPC (s.PC - 2))) ∨
    (∃ k, s.wait = .awaitingRelease k ∧ keyDown k s = false ∧
      execLdVxK x s = .next ((s.setWait .idle).setReg x (k.setWidth 8))) := by
  rcases poll_cases s with ⟨h, hp, e⟩ | ⟨k, h, hp, e⟩ | ⟨k, h, hp, e⟩ | ⟨k, h, hp, e⟩
  · exact .inl ⟨h, hp, by rw [execLdVxK, e]; rfl⟩
  · exact .inr (.inl ⟨k, h, hp, by rw [execLdVxK, e]; rfl⟩)
  · exact .inr (.inr (.inl ⟨k, h, hp, by rw [execLdVxK, e]⟩))
  · exact .inr (.inr (.inr ⟨k, h, hp, by rw [execLdVxK, e]⟩))

/-- A skip either moves PC or changes nothing. -/
theorem skipIf_cases (c : Bool) (s : State) : skipIf c s = s.setPC (s.PC + 2) ∨ skipIf c s = s := by
  cases c
  · exact .inr rfl
  · exact .inl rfl

/-- `setRegsFrom` keeps every field but V. -/
theorem setRegsFrom_keeps (k : Nat) (bs : List Byte) (s : State) :
    let t := State.setRegsFrom k bs s
    t.I = s.I ∧ t.PC = s.PC ∧ t.stack = s.stack ∧ t.DT = s.DT ∧ t.ST = s.ST ∧ t.lit = s.lit ∧ t.phos = s.phos ∧
    t.pressed = s.pressed ∧ t.wait = s.wait ∧ t.status = s.status ∧ t.M = s.M ∧ t.rbuf = s.rbuf ∧
    t.inputs = s.inputs ∧ t.rndIn = s.rndIn ∧ t.freeCount = s.freeCount := by
  obtain ⟨V, h⟩ := State.setRegsFrom_eq s k bs
  simp [h]

/-- What an instruction does to the state when it raises no fault, with the conditions under which it does it. -/
def Effect (s t : State) : Instr → Prop
  | .sys _ => False
  | .cls => t = s.setLit (gridOf fun _ _ => false)
  | .ret => ∃ l v, s.stack = l ++ [v] ∧ t = (s.setStack l).setPC v
  | .jp nnn => t = s.setPC (targetOf nnn)
  | .call nnn => s.stack.length < 12 ∧ t = (s.setStack (s.stack ++ [s.PC])).setPC (targetOf nnn)
  | .jpV0 nnn => t = s.setPC (offsetTarget nnn s)
  | .seImm x nn => t = skipIf (s.reg x == nn) s
  | .sneImm x nn => t = skipIf (s.reg x != nn) s
  | .seReg x y => t = skipIf (s.reg x == s.reg y) s
  | .sneReg x y => t = skipIf (s.reg x != s.reg y) s
  | .ldImm x nn => t = s.setReg x nn
  | .addImm x nn => t = s.setReg x (s.reg x + nn)
  | .ldReg x y => t = s.setReg x (s.reg y)
  | .orReg x y => t = s.setReg x (s.reg x ||| s.reg y)
  | .andReg x y => t = s.setReg x (s.reg x &&& s.reg y)
  | .xorReg x y => t = s.setReg x (s.reg x ^^^ s.reg y)
  | .addReg x y => t = s.setResultThenFlag x (s.reg x + s.reg y) (carryFlag (s.reg x) (s.reg y))
  | .subReg x y => t = s.setResultThenFlag x (s.reg x - s.reg y) (noBorrowFlag (s.reg x) (s.reg y))
  | .shr x _ => t = s.setResultThenFlag x (s.reg x >>> 1) (lostRightFlag (s.reg x))
  | .subnReg x y => t = s.setResultThenFlag x (s.reg y - s.reg x) (noBorrowFlag (s.reg y) (s.reg x))
  | .shl x _ => t = s.setResultThenFlag x (s.reg x <<< 1) (lostLeftFlag (s.reg x))
  | .rnd x nn => ∃ u b, (u = s ∨ u = s.countFree) ∧ t = u.setReg x (b &&& nn)
  | .ldI nnn => t = s.setI nnn
  | .addI x => s.I.toNat + (s.reg x).toNat ≤ 0xFFF ∧ t = s.setI (BitVec.ofNat 12 (s.I.toNat + (s.reg x).toNat))
  | .ldF x => t = s.setI (BitVec.ofNat 12 (glyphAddr (s.reg x)))
  | .ldB x => s.I.toNat + 2 ≤ 0xFFF ∧ t = s.setM (s.M.writeList s.I.toNat (bcdDigits (s.reg x)))
  | .stRegs x => s.I.toNat + x.toNat ≤ 0xFFF ∧ t = s.setM (s.M.writeList s.I.toNat (s.firstRegs (x.toNat + 1)))
  | .ldRegs x => s.I.toNat + x.toNat ≤ 0xFFF ∧
      t = State.setRegsFrom 0 ((List.range (x.toNat + 1)).map fun k => s.M.read (s.I.toNat + k)) s
  | .drw x y n => s.I.toNat + n.toNat ≤ 0x1000 ∧
      t = s.afterBlit (draw (s.reg x) (s.reg y) ((List.range n.toNat).map fun k => s.M.read (s.I.toNat + k)) s)
  | .skp x => t = skipIf (keyDown (lowNibble (s.reg x)) s) s
  | .sknp x => t = skipIf (!keyDown (lowNibble (s.reg x)) s) s
  | .ldVxDt x => t = s.setReg x s.DT
  | .ldDtVx x => t = s.setDT (s.reg x)
  | .ldStVx x => t = s.setST (s.reg x)
  | .ldVxK x => (∃ w, t = (s.setWait w).setPC (s.PC - 2)) ∨
      (∃ k, s.wait = .awaitingRelease k ∧ t = (s.setWait .idle).setReg x (k.setWidth 8))

/-- Every next state of an instruction is one in which it took a fault, or the one its effect gives. -/
theorem exec_effect {i : Instr} {s t : State} (h : exec i s = .next t) :
    (∃ e, t = takeFault e (s.PC - 2) (some (encode i)) s) ∨ Effect s t i := by
  have eff : ∀ {u : State}, exec i s = .next u → Effect s u i → Effect s t i := by
    intro u hu he
    rw [h] at hu
    injection hu with hu
    rwa [hu]
  have flt : ∀ e, exec i s = .next (takeFault e (s.PC - 2) (some (encode i)) s) →
      ∃ e, t = takeFault e (s.PC - 2) (some (encode i)) s := by
    intro e hu
    rw [h] at hu
    injection hu with hu
    exact ⟨e, hu⟩
  cases i with
  | sys nnn => exact .inl (flt _ rfl)
  | ret =>
    rcases execRet_cases s with ⟨l, v, hs, e⟩ | ⟨-, e⟩
    · exact .inr (eff e ⟨l, v, hs, rfl⟩)
    · exact .inl (flt _ e)
  | call nnn =>
    rcases execCall_cases nnn s with ⟨hs, e⟩ | ⟨-, e⟩
    · exact .inr (eff e ⟨hs, rfl⟩)
    · exact .inl (flt _ e)
  | addI x =>
    rcases execAddI_cases x s with ⟨hs, e⟩ | ⟨-, e⟩
    · exact .inr (eff e ⟨hs, rfl⟩)
    · exact .inl (flt _ e)
  | ldB x =>
    rcases execLdB_cases x s with ⟨hs, e⟩ | ⟨-, e⟩
    · exact .inr (eff e ⟨hs, rfl⟩)
    · exact .inl (flt _ e)
  | stRegs x =>
    rcases execStRegs_cases x s with ⟨hs, e⟩ | ⟨-, e⟩
    · exact .inr (eff e ⟨hs, rfl⟩)
    · exact .inl (flt _ e)
  | ldRegs x =>
    rcases execLdRegs_cases x s with ⟨hs, e⟩ | ⟨-, e⟩
    · exact .inr (eff e ⟨hs, rfl⟩)
    · exact .inl (flt _ e)
  | drw x y n =>
    rcases execDrw_cases x y n s with ⟨hs, e⟩ | ⟨-, e⟩
    · exact .inr (eff e ⟨hs, rfl⟩)
    · exact .inl (flt _ e)
  | rnd x nn =>
    rcases execRnd_cases x nn s with ⟨r, -, e⟩ | ⟨-, e⟩
    · exact .inr (eff e ⟨s, r, .inl rfl, rfl⟩)
    · exact .inr (eff e ⟨_, _, .inr rfl, rfl⟩)
  | ldVxK x =>
    rcases execLdVxK_cases x s with ⟨-, -, e⟩ | ⟨k, -, -, e⟩ | ⟨k, -, -, e⟩ | ⟨k, hk, -, e⟩
    · exact .inr (eff e (.inl ⟨_, rfl⟩))
    · exact .inr (eff e (.inl ⟨_, rfl⟩))
    · exact .inr (eff e (.inl ⟨s.wait, rfl⟩))
    · exact .inr (eff e (.inr ⟨k, hk, rfl⟩))
  | seImm x nn => exact .inr (eff rfl rfl)
  | sneImm x nn => exact .inr (eff rfl rfl)
  | seReg x y => exact .inr (eff rfl rfl)
  | sneReg x y => exact .inr (eff rfl rfl)
  | skp x => exact .inr (eff rfl rfl)
  | sknp x => exact .inr (eff rfl rfl)
  | cls => exact .inr (eff rfl rfl)
  | jp nnn => exact .inr (eff rfl rfl)
  | jpV0 nnn => exact .inr (eff rfl rfl)
  | ldImm x nn => exact .inr (eff rfl rfl)
  | addImm x nn => exact .inr (eff rfl rfl)
  | ldReg x y => exact .inr (eff rfl rfl)
  | orReg x y => exact .inr (eff rfl rfl)
  | andReg x y => exact .inr (eff rfl rfl)
  | xorReg x y => exact .inr (eff rfl rfl)
  | addReg x y => exact .inr (eff rfl rfl)
  | subReg x y => exact .inr (eff rfl rfl)
  | shr x y => exact .inr (eff rfl rfl)
  | subnReg x y => exact .inr (eff rfl rfl)
  | shl x y => exact .inr (eff rfl rfl)
  | ldI nnn => exact .inr (eff rfl rfl)
  | ldF x => exact .inr (eff rfl rfl)
  | ldVxDt x => exact .inr (eff rfl rfl)
  | ldDtVx x => exact .inr (eff rfl rfl)
  | ldStVx x => exact .inr (eff rfl rfl)

/-- Every next state of an instruction is one in which its fault was taken, or one with the status as before. -/
theorem exec_cases {i : Instr} {s t : State} (h : exec i s = .next t) :
    (∃ e, t = takeFault e (s.PC - 2) (some (encode i)) s) ∨ t.status = s.status := by
  rcases exec_effect h with h | h
  · exact .inl h
  · right
    cases i <;> simp only [Effect] at h
    case ldRegs x =>
      rw [h.2]
      exact (setRegsFrom_keeps _ _ s).2.2.2.2.2.2.2.2.2.1
    case ldVxK x => rcases h with ⟨w, rfl⟩ | ⟨k, -, rfl⟩ <;> rfl
    case rnd x nn => obtain ⟨u, b, rfl | rfl, rfl⟩ := h <;> rfl
    case ret => obtain ⟨l, v, -, rfl⟩ := h; rfl
    case call nnn => rw [h.2]; rfl
    case addI x => rw [h.2]; rfl
    case ldB x => rw [h.2]; rfl
    case stRegs x => rw [h.2]; rfl
    case drw x y n => rw [h.2]; rfl
    all_goals
      rw [h]
      first
        | rfl
        | (unfold skipIf; split <;> rfl)

end Sys2Proof.Machine
end

