-- ==== Sys2Proof/Laws/Step.lean ====
section
/-! SUPPORT. What the instruction cycle, the host's other steps and one step of the machine can do, said once. -/

namespace Sys2Proof.Machine

/-! ## The instruction cycle -/

/-- A `cpu_step`: nothing on a halted core, a fault of the fetch or of the decode, or the instruction at PC. -/
theorem cpuStep_cases {rnd : Option Byte} {s t : State} (h : cpuStep rnd s = .next t) :
    ((∃ r, s.status = .halted r) ∧ t = s) ∨
    (s.isRunning ∧ ∃ e, fetch16 s.PC.toNat s = .error e ∧ t = takeFault e s.PC none s) ∨
    (s.isRunning ∧ ∃ w d, fetch16 s.PC.toNat s = .ok w ∧ decode w = .error d ∧
      t = takeFault ⟨.unknownOpcode, some w.toNat⟩ s.PC (some w) (fetched rnd s)) ∨
    (s.isRunning ∧ ∃ w i, fetch16 s.PC.toNat s = .ok w ∧ decode w = .ok i ∧ exec i (fetched rnd s) = .next t) := by
  unfold cpuStep at h
  split at h
  · next r hr => exact .inl ⟨⟨r, hr⟩, by cases h; rfl⟩
  · next hr =>
    split at h
    · next e he => exact .inr (.inl ⟨hr, e, he, by cases h; rfl⟩)
    · next w hw =>
      unfold decodeAndExecute at h
      split at h
      · next i hi => exact .inr (.inr (.inr ⟨hr, w, i, hw, hi, h⟩))
      · next d hd => exact .inr (.inr (.inl ⟨hr, w, d, hw, hd, by cases h; rfl⟩))

/-- Running the instruction at PC. -/
theorem cpuStep_of_decode {rnd : Option Byte} {s : State} {w : Word} {i : Instr} (hr : s.isRunning)
    (hw : fetch16 s.PC.toNat s = .ok w) (hi : decode w = .ok i) : cpuStep rnd s = exec i (fetched rnd s) := by
  unfold State.isRunning at hr
  simp only [cpuStep, hr, hw, decodeAndExecute, hi]

/-! ## The other steps: every field they keep -/

@[simp] theorem timerStep_reg (s : State) (x : Reg) : (timerStep s).reg x = s.reg x := rfl
@[simp] theorem timerStep_PC (s : State) : (timerStep s).PC = s.PC := rfl
@[simp] theorem timerStep_stack (s : State) : (timerStep s).stack = s.stack := rfl
@[simp] theorem timerStep_lit (s : State) : (timerStep s).lit = s.lit := rfl
@[simp] theorem timerStep_phos (s : State) : (timerStep s).phos = s.phos := rfl
@[simp] theorem timerStep_wait (s : State) : (timerStep s).wait = s.wait := rfl
@[simp] theorem timerStep_status (s : State) : (timerStep s).status = s.status := rfl
@[simp] theorem timerStep_M (s : State) : (timerStep s).M = s.M := rfl
@[simp] theorem timerStep_inputs (s : State) : (timerStep s).inputs = s.inputs := rfl

@[simp] theorem renderStep_reg (s : State) (x : Reg) : (renderStep s).reg x = s.reg x := by simp [renderStep]
@[simp] theorem renderStep_PC (s : State) : (renderStep s).PC = s.PC := by simp [renderStep]
@[simp] theorem renderStep_stack (s : State) : (renderStep s).stack = s.stack := by simp [renderStep]
@[simp] theorem renderStep_lit (s : State) : (renderStep s).lit = s.lit := by simp [renderStep]
@[simp] theorem renderStep_phos (s : State) : (renderStep s).phos = decayed s := rfl
@[simp] theorem renderStep_wait (s : State) : (renderStep s).wait = s.wait := by simp [renderStep]
@[simp] theorem renderStep_status (s : State) : (renderStep s).status = s.status := by simp [renderStep]
@[simp] theorem renderStep_M (s : State) : (renderStep s).M = s.M := by simp [renderStep]
@[simp] theorem renderStep_inputs (s : State) : (renderStep s).inputs = s.inputs := by simp [renderStep]

@[simp] theorem keyPress_wait (k : Key) (s : State) : (keyPress k s).wait = s.wait := rfl
@[simp] theorem keyPress_status (k : Key) (s : State) : (keyPress k s).status = s.status := rfl
@[simp] theorem keyPress_inputs (k : Key) (s : State) : (keyPress k s).inputs = s.inputs := rfl
@[simp] theorem keyRelease_wait (k : Key) (s : State) : (keyRelease k s).wait = s.wait := rfl
@[simp] theorem keyRelease_status (k : Key) (s : State) : (keyRelease k s).status = s.status := rfl
@[simp] theorem keyRelease_inputs (k : Key) (s : State) : (keyRelease k s).inputs = s.inputs := rfl

/-- A timer one count down, as a number. -/
theorem toNat_countDown (t : Byte) : (countDown t).toNat = t.toNat - 1 := by
  unfold countDown
  split
  · next h => rw [h]; rfl
  · next h =>
    have h0 : t.toNat ≠ 0 := fun e => h (BitVec.eq_of_toNat_eq e)
    have := t.isLt
    rw [BitVec.toNat_sub, show (1 : Byte).toNat = 1 from rfl]
    omega

/-- The decay of a pixel that is off, as a number. -/
theorem toNat_decayPixel_off (p : Byte) : (decayPixel false p).toNat = p.toNat - decayStep := by
  have := p.isLt
  simp only [decayPixel, Bool.false_eq_true, if_false, BitVec.toNat_ofNat]
  omega

/-- The phosphor of a pixel after one render's decay. -/
@[simp] theorem gridCell_decayed (s : State) (x : Fin 64) (y : Fin 32) :
    gridCell (decayed s) x y = decayPixel (gridCell s.lit x y) (gridCell s.phos x y) := gridCell_gridOf _ x y

/-- Byte (y * 64 + x) * 4 + ch of the render buffer is COLOR_MAP of channel ch and the phosphor of pixel (x, y). -/
theorem getElem_renderBuffer (g : Grid Byte) (x : Fin 64) (y : Fin 32) (ch : Fin 4) :
    (renderBuffer g)[(y.val * 64 + x.val) * 4 + ch.val]'(by omega) = colorMap ch (gridCell g x y) := by
  unfold renderBuffer
  rw [Vector.getElem_ofFn]
  have h1 : Fin.ofNat 4 ((y.val * 64 + x.val) * 4 + ch.val) = ch := Fin.ext (by simp only [Fin.val_ofNat]; omega)
  have h2 : Fin.ofNat 64 (((y.val * 64 + x.val) * 4 + ch.val) / 4) = x := Fin.ext (by simp only [Fin.val_ofNat]; omega)
  have h3 : Fin.ofNat 32 (((y.val * 64 + x.val) * 4 + ch.val) / 256) = y := Fin.ext (by simp only [Fin.val_ofNat]; omega)
  rw [h1, h2, h3]

/-- A reset: the reset state with the ROM in memory, or a refusal of a ROM that is too long. -/
theorem resetWith_cases (rom : List Byte) (s : State) :
    (rom.length ≤ 3584 ∧ resetWith rom s = .next { State.reset with
      M := Memory.writeList [] 0x200 rom, inputs := s.inputs, freeCount := s.freeCount }) ∨
    (3584 < rom.length ∧ resetWith rom s = .refused (.romTooLong rom.length)) := by
  unfold resetWith romMax
  by_cases h : 3584 < rom.length
  · exact .inr ⟨h, if_pos h⟩
  · exact .inl ⟨by omega, if_neg h⟩

/-! ## One step of the machine -/

/-- One step: a `cpu_step`, or one of the host's other steps. -/
theorem step_cases {s t : State} (h : step s = .next t) :
    (∃ rnd u, (u = s ∨ ∃ rest, u = s.setInputs rest) ∧ cpuStep rnd u = .next t) ∨
    (∃ rest, s.inputs = .timerStep :: rest ∧ t = timerStep (s.setInputs rest)) ∨
    (∃ rest, s.inputs = .renderStep :: rest ∧ t = renderStep (s.setInputs rest)) ∨
    (∃ k rest, s.inputs = .keyPress k :: rest ∧ t = keyPress k (s.setInputs rest)) ∨
    (∃ k rest, s.inputs = .keyRelease k :: rest ∧ t = keyRelease k (s.setInputs rest)) ∨
    (∃ rom rest, s.inputs = .reset rom :: rest ∧ rom.length ≤ 3584 ∧ t = { State.reset with
      M := Memory.writeList [] 0x200 rom, inputs := rest, freeCount := s.freeCount }) := by
  unfold step at h
  split at h
  · exact .inl ⟨none, s, .inl rfl, h⟩
  · next hs rest hi =>
    cases hs with
    | cpuStep r => exact .inl ⟨some r, _, .inr ⟨rest, rfl⟩, h⟩
    | timerStep => exact .inr (.inl ⟨rest, hi, by cases h; rfl⟩)
    | renderStep =>
      refine .inr (.inr (.inl ⟨rest, hi, ?_⟩))
      injection h with h
      exact h.symm
    | keyPress k => exact .inr (.inr (.inr (.inl ⟨k, rest, hi, by cases h; rfl⟩)))
    | keyRelease k => exact .inr (.inr (.inr (.inr (.inl ⟨k, rest, hi, by cases h; rfl⟩))))
    | reset rom =>
      refine .inr (.inr (.inr (.inr (.inr ⟨rom, rest, hi, ?_⟩))))
      rcases resetWith_cases rom (s.setInputs rest) with ⟨hl, e⟩ | ⟨hl, e⟩
      · exact ⟨hl, by simp only [hostStep, e] at h; injection h with h; exact h.symm⟩
      · simp only [hostStep, e] at h
        cases h

end Sys2Proof.Machine
end

