-- ==== Sys2Proof/Laws/Frame.lean ====
section
/-! SUPPORT. The frame of each write of one part of the state: what it leaves as it was. -/

namespace Sys2Proof.Machine

/-- Nothing changed. -/
theorem frame_refl (c : Changes) (s : State) : Frame c s s := by simp [Frame]

theorem frame_setReg (s : State) (x : Reg) (v : Byte) : Frame { regs := (· = x) } s (s.setReg x v) := by
  simp only [Frame, State.reg_setReg]
  simp
  tauto

theorem frame_setResultThenFlag (s : State) (x : Reg) (v flag : Byte) :
    Frame { regs := fun r => r = x ∨ r = 0xF } s (s.setResultThenFlag x v flag) := by
  simp only [Frame, State.reg_setResultThenFlag]
  simp [State.setResultThenFlag]
  intro r
  by_cases h : r = 15#4 <;> by_cases h' : r = x <;> simp [h, h']

theorem frame_setPC (s : State) (a : Word) : Frame { PC := True } s (s.setPC a) := by simp [Frame]

theorem frame_skipIf (s : State) (c : Bool) : Frame { PC := True } s (skipIf c s) := by
  rcases skipIf_cases c s with e | e <;> rw [e]
  · exact frame_setPC s _
  · exact frame_refl _ s

theorem frame_setI (s : State) (a : Addr) : Frame { I := True } s (s.setI a) := by simp [Frame]

theorem frame_setDT (s : State) (v : Byte) : Frame { DT := True } s (s.setDT v) := by simp [Frame]

theorem frame_setST (s : State) (v : Byte) : Frame { ST := True } s (s.setST v) := by simp [Frame]

theorem frame_setLit (s : State) (g : Grid Bool) : Frame { lit := True } s (s.setLit g) := by simp [Frame]

theorem frame_setStack_setPC (s : State) (l : List Word) (a : Word) :
    Frame { PC := True, stack := True } s ((s.setStack l).setPC a) := by simp [Frame]

theorem frame_setRegsFrom (s : State) (n : Nat) (bs : List Byte) (h : bs.length = n + 1) (hn : n < 16) :
    Frame { regs := fun r => r.toNat ≤ n } s (State.setRegsFrom 0 bs s) := by
  have hk := setRegsFrom_keeps 0 bs s
  simp only at hk
  obtain ⟨h1, h2, h3, h4, h5, h6, h7, h8, h9, h10, h11, h12, h13, -, -⟩ := hk
  refine ⟨fun r => ?_, ?_⟩
  · rw [State.reg_setRegsFrom s 0 bs (by omega)]
    by_cases hr : r.toNat ≤ n
    · exact .inl hr
    · right
      rw [List.getElem?_eq_none (by omega)]
      simp
  · simp [h1, h2, h3, h4, h5, h6, h7, h8, h9, h10, h11, h12, h13]

theorem frame_setM_writeList (s : State) (n a : Nat) (vs : List Byte) (hm : Memory.wf s.M = true)
    (hl : vs.length = n + 1) (ha : a + n < memSize) :
    Frame { mem := fun b => a ≤ b ∧ b ≤ a + n } s (s.setM (s.M.writeList a vs)) := by
  obtain ⟨-, hrd⟩ := Memory.writeList_spec vs s.M a hm (by omega)
  refine ⟨fun r => .inr rfl, fun b => ?_, ?_⟩
  · rw [State.setM_M, hrd]
    by_cases hb : a ≤ b ∧ b ≤ a + n
    · exact .inl hb
    · right
      split
      · rw [List.getElem?_eq_none (by omega)]
        rfl
      · rfl
  · simp

end Sys2Proof.Machine
end

