-- ==== Sys2Proof/Laws/PerInstr.lean ====
section
/-! SUPPORT. Families of statements made per instruction. -/

namespace Sys2Proof.Laws.MatchesTableRow

/-- The word of an instruction has its row's "match" in the bits of its row's "mask" (spec/opcode_table.json). -/
def Statement (i : Instr) : Prop := encode i &&& opcodeMask i = opcodeMatch i

theorem sys (nnn : Addr) : Statement (.sys nnn) := by
  simp only [Statement, encode, opcodeMask, opcodeMatch, and_mask_class, classOf_formatNNN]
  decide

theorem cls : Statement (.cls) := by unfold Statement; decide

theorem ret : Statement (.ret) := by unfold Statement; decide

theorem jp (nnn : Addr) : Statement (.jp nnn) := by
  simp only [Statement, encode, opcodeMask, opcodeMatch, and_mask_class, classOf_formatNNN]
  decide

theorem call (nnn : Addr) : Statement (.call nnn) := by
  simp only [Statement, encode, opcodeMask, opcodeMatch, and_mask_class, classOf_formatNNN]
  decide

theorem seImm (x : Reg) (nn : Byte) : Statement (.seImm x nn) := by
  simp only [Statement, encode, opcodeMask, opcodeMatch, and_mask_class, classOf_formatXNN]
  decide

theorem sneImm (x : Reg) (nn : Byte) : Statement (.sneImm x nn) := by
  simp only [Statement, encode, opcodeMask, opcodeMatch, and_mask_class, classOf_formatXNN]
  decide

theorem seReg (x y : Reg) : Statement (.seReg x y) := by
  simp only [Statement, encode, opcodeMask, opcodeMatch, and_mask_class_n, classOf_formatXYN, nOf_formatXYN]
  decide

theorem ldImm (x : Reg) (nn : Byte) : Statement (.ldImm x nn) := by
  simp only [Statement, encode, opcodeMask, opcodeMatch, and_mask_class, classOf_formatXNN]
  decide

theorem addImm (x : Reg) (nn : Byte) : Statement (.addImm x nn) := by
  simp only [Statement, encode, opcodeMask, opcodeMatch, and_mask_class, classOf_formatXNN]
  decide

theorem ldReg (x y : Reg) : Statement (.ldReg x y) := by
  simp only [Statement, encode, opcodeMask, opcodeMatch, and_mask_class_n, classOf_formatXYN, nOf_formatXYN]
  decide

theorem orReg (x y : Reg) : Statement (.orReg x y) := by
  simp only [Statement, encode, opcodeMask, opcodeMatch, and_mask_class_n, classOf_formatXYN, nOf_formatXYN]
  decide

theorem andReg (x y : Reg) : Statement (.andReg x y) := by
  simp only [Statement, encode, opcodeMask, opcodeMatch, and_mask_class_n, classOf_formatXYN, nOf_formatXYN]
  decide

theorem xorReg (x y : Reg) : Statement (.xorReg x y) := by
  simp only [Statement, encode, opcodeMask, opcodeMatch, and_mask_class_n, classOf_formatXYN, nOf_formatXYN]
  decide

theorem addReg (x y : Reg) : Statement (.addReg x y) := by
  simp only [Statement, encode, opcodeMask, opcodeMatch, and_mask_class_n, classOf_formatXYN, nOf_formatXYN]
  decide

theorem subReg (x y : Reg) : Statement (.subReg x y) := by
  simp only [Statement, encode, opcodeMask, opcodeMatch, and_mask_class_n, classOf_formatXYN, nOf_formatXYN]
  decide

theorem shr (x y : Reg) : Statement (.shr x y) := by
  simp only [Statement, encode, opcodeMask, opcodeMatch, and_mask_class_n, classOf_formatXYN, nOf_formatXYN]
  decide

theorem subnReg (x y : Reg) : Statement (.subnReg x y) := by
  simp only [Statement, encode, opcodeMask, opcodeMatch, and_mask_class_n, classOf_formatXYN, nOf_formatXYN]
  decide

theorem shl (x y : Reg) : Statement (.shl x y) := by
  simp only [Statement, encode, opcodeMask, opcodeMatch, and_mask_class_n, classOf_formatXYN, nOf_formatXYN]
  decide

theorem sneReg (x y : Reg) : Statement (.sneReg x y) := by
  simp only [Statement, encode, opcodeMask, opcodeMatch, and_mask_class_n, classOf_formatXYN, nOf_formatXYN]
  decide

theorem ldI (nnn : Addr) : Statement (.ldI nnn) := by
  simp only [Statement, encode, opcodeMask, opcodeMatch, and_mask_class, classOf_formatNNN]
  decide

theorem jpV0 (nnn : Addr) : Statement (.jpV0 nnn) := by
  simp only [Statement, encode, opcodeMask, opcodeMatch, and_mask_class, classOf_formatNNN]
  decide

theorem rnd (x : Reg) (nn : Byte) : Statement (.rnd x nn) := by
  simp only [Statement, encode, opcodeMask, opcodeMatch, and_mask_class, classOf_formatXNN]
  decide

theorem drw (x y : Reg) (n : BitVec 4) : Statement (.drw x y n) := by
  simp only [Statement, encode, opcodeMask, opcodeMatch, and_mask_class, classOf_formatXYN]
  decide

theorem skp (x : Reg) : Statement (.skp x) := by
  simp only [Statement, encode, opcodeMask, opcodeMatch, and_mask_class_nn, classOf_formatXNN, nnOf_formatXNN]
  decide

theorem sknp (x : Reg) : Statement (.sknp x) := by
  simp only [Statement, encode, opcodeMask, opcodeMatch, and_mask_class_nn, classOf_formatXNN, nnOf_formatXNN]
  decide

theorem ldVxDt (x : Reg) : Statement (.ldVxDt x) := by
  simp only [Statement, encode, opcodeMask, opcodeMatch, and_mask_class_nn, classOf_formatXNN, nnOf_formatXNN]
  decide

theorem ldVxK (x : Reg) : Statement (.ldVxK x) := by
  simp only [Statement, encode, opcodeMask, opcodeMatch, and_mask_class_nn, classOf_formatXNN, nnOf_formatXNN]
  decide

theorem ldDtVx (x : Reg) : Statement (.ldDtVx x) := by
  simp only [Statement, encode, opcodeMask, opcodeMatch, and_mask_class_nn, classOf_formatXNN, nnOf_formatXNN]
  decide

theorem ldStVx (x : Reg) : Statement (.ldStVx x) := by
  simp only [Statement, encode, opcodeMask, opcodeMatch, and_mask_class_nn, classOf_formatXNN, nnOf_formatXNN]
  decide

theorem addI (x : Reg) : Statement (.addI x) := by
  simp only [Statement, encode, opcodeMask, opcodeMatch, and_mask_class_nn, classOf_formatXNN, nnOf_formatXNN]
  decide

theorem ldF (x : Reg) : Statement (.ldF x) := by
  simp only [Statement, encode, opcodeMask, opcodeMatch, and_mask_class_nn, classOf_formatXNN, nnOf_formatXNN]
  decide

theorem ldB (x : Reg) : Statement (.ldB x) := by
  simp only [Statement, encode, opcodeMask, opcodeMatch, and_mask_class_nn, classOf_formatXNN, nnOf_formatXNN]
  decide

theorem stRegs (x : Reg) : Statement (.stRegs x) := by
  simp only [Statement, encode, opcodeMask, opcodeMatch, and_mask_class_nn, classOf_formatXNN, nnOf_formatXNN]
  decide

theorem ldRegs (x : Reg) : Statement (.ldRegs x) := by
  simp only [Statement, encode, opcodeMask, opcodeMatch, and_mask_class_nn, classOf_formatXNN, nnOf_formatXNN]
  decide

end Sys2Proof.Laws.MatchesTableRow
end

