-- ==== Sys2Proof/Tests/Slice0.lean ====
section
/-! SUPPORT. Small tests, and a witness for every obligation with hypotheses. Every expected value is from the spec: the
words are written out from the bit patterns of 30_encoding.md R54 and R56, and a test named after a vector (CF5, ALU12,
...) has its start and its result from that row of 95_test_vectors.md. -/

namespace Sys2Proof.Tests

open Sys2Proof.Machine

/-! ## Helpers -/

/-- The reset state with some registers set. -/
def withV (l : List (Reg × Byte)) : State := l.foldl (fun s p => s.setReg p.1 p.2) State.reset

/-- The reset state with I, some registers, and some bytes from 0x300 on. -/
def withIV (i : Addr) (l : List (Reg × Byte)) (bytes : List Byte) : State :=
  ((withV l).setI i).setM (Memory.writeList [] 0x300 bytes)

/-- One `cpu_step` of a word placed at PC. -/
def tick (w : Nat) (s : State) : Option State :=
  match step (s.withFetchWord 16 w) with
  | .next t => some t
  | .fault _ => none
  | .refused _ => none

/-- One step of the host. -/
def after (h : HostStep) (s : State) : Option State :=
  match step (s.setInputs [h]) with
  | .next t => some t
  | .fault _ => none
  | .refused _ => none

/-- PC after one `cpu_step` of a word placed at PC. -/
def pcAfter (w : Nat) (s : State) : Option Word := (tick w s).map fun t => t.PC

/-- Status after one `cpu_step` of a word placed at PC. -/
def statusAfter (w : Nat) (s : State) : Option Status := (tick w s).map fun t => t.status

/-- V1 and VF after one `cpu_step` of a word placed at PC. -/
def v1fAfter (w : Nat) (s : State) : Option (Byte × Byte) := (tick w s).map fun t => (t.reg 1, t.reg 0xF)

/-- The three bytes at 0x300 and I after one `cpu_step` of a word placed at PC. -/
def bytesAfter (w : Nat) (s : State) : Option (List Byte × Addr) :=
  (tick w s).map fun t => ([t.M.read 0x300, t.M.read 0x301, t.M.read 0x302], t.I)

/-- The key-wait state and PC after one `cpu_step` of a word placed at PC. -/
def waitAfter (w : Nat) (s : State) : Option (WaitState × Word) := (tick w s).map fun t => (t.wait, t.PC)

/-- The columns 0 to 63 of a row that are on. -/
def onColumns (s : State) (y : Fin 32) : List Nat := (List.finRange 64).filterMap fun x => if gridCell s.lit x y then some x.val else none

/-- A running state with a stack of n entries 0x202. -/
def withDepth (n : Nat) : State := State.reset.setStack (List.replicate n 0x202)

/-- A halted state. -/
def halted : State := { State.reset with status := .halted ⟨.stackOverflow, none, 0x200, some 0x2200⟩ }

/-- Whether an instruction answers a halted state. -/
def haltsNow (i : Instr) (s : State) : Bool :=
  match exec i s with
  | .next t => t.status != .running
  | .fault _ => false
  | .refused _ => false

/-! ## WellFormed refuses ill-formed terms -/

theorem test_sys_0E0_is_ill_formed : (Instr.sys 0x0E0).wellFormed = false := by decide
theorem test_sys_0EE_is_ill_formed : (Instr.sys 0x0EE).wellFormed = false := by decide
theorem test_sys_0E1_is_well_formed : (Instr.sys 0x0E1).wellFormed = true := by decide

/-! ## Decoding, one word of every row, bit by bit -/

theorem test_decode_class0 :
    decode 0b0000000100100011 = .ok (.sys 0x123) ∧ decode 0b0000000011100000 = .ok .cls ∧
    decode 0b0000000011101110 = .ok .ret ∧ decode 0b0000000011100001 = .ok (.sys 0x0E1) := by decide
theorem test_decode_jumps :
    decode 0b0001001000110100 = .ok (.jp 0x234) ∧ decode 0b0010001100000000 = .ok (.call 0x300) ∧
    decode 0b1011001100000000 = .ok (.jpV0 0x300) := by decide
theorem test_decode_skips :
    decode 0b0011001101000010 = .ok (.seImm 3 0x42) ∧ decode 0b0100001101000010 = .ok (.sneImm 3 0x42) ∧
    decode 0b0101000100100000 = .ok (.seReg 1 2) ∧ decode 0b1001000100100000 = .ok (.sneReg 1 2) := by decide
theorem test_decode_loads :
    decode 0b0110101000101111 = .ok (.ldImm 0xA 0x2F) ∧ decode 0b0111000100000010 = .ok (.addImm 1 0x02) ∧
    decode 0b1000000100100000 = .ok (.ldReg 1 2) := by decide
theorem test_decode_bitwise :
    decode 0b1000000100100001 = .ok (.orReg 1 2) ∧ decode 0b1000000100100010 = .ok (.andReg 1 2) ∧
    decode 0b1000000100100011 = .ok (.xorReg 1 2) := by decide
theorem test_decode_arithmetic :
    decode 0b1000000100100100 = .ok (.addReg 1 2) ∧ decode 0b1000000100100101 = .ok (.subReg 1 2) ∧
    decode 0b1000101001010110 = .ok (.shr 0xA 5) ∧ decode 0b1000000100100111 = .ok (.subnReg 1 2) ∧
    decode 0b1000000100101110 = .ok (.shl 1 2) ∧ decode 0b1100001100001111 = .ok (.rnd 3 0x0F) := by decide
theorem test_decode_index_memory :
    decode 0b1010001011110000 = .ok (.ldI 0x2F0) ∧ decode 0b1111001000011110 = .ok (.addI 2) ∧
    decode 0b1111000000101001 = .ok (.ldF 0) ∧ decode 0b1111000000110011 = .ok (.ldB 0) ∧
    decode 0b1111001001010101 = .ok (.stRegs 2) ∧ decode 0b1111001001100101 = .ok (.ldRegs 2) := by decide
theorem test_decode_timers :
    decode 0b1111010100000111 = .ok (.ldVxDt 5) ∧ decode 0b1111010100010101 = .ok (.ldDtVx 5) ∧
    decode 0b1111000000011000 = .ok (.ldStVx 0) := by decide
theorem test_decode_keys_display :
    decode 0b1110000110011110 = .ok (.skp 1) ∧ decode 0b1110000110100001 = .ok (.sknp 1) ∧
    decode 0b1111001100001010 = .ok (.ldVxK 3) ∧ decode 0b1101000000010101 = .ok (.drw 0 1 5) := by decide
theorem test_decode_illegal :
    [0x5121, 0x8128, 0x812F, 0x9121, 0xE19F, 0xF100, 0xFFFF].all
      (fun w => decode w == .error (.unknownOpcode w)) = true := by decide
theorem test_bytes_are_big_endian :
    decodeBytes [0x81, 0x24, 0x55] = .ok (.addReg 1 2, [0x55]) ∧ encodeBytes (.addReg 1 2) = [0x81, 0x24] ∧
    decodeBytes [0x81] = .error .truncated ∧ decodeTableWord 16 0x8124 = some (.addReg 1 2) := by decide

/-! ## Fetch and the cycle -/

theorem test_DEC15_fetch_at_the_top :
    pcAfter 0x1200 (State.reset.setPC 0xFFE) = some 0x200 := by decide
theorem test_DEC18_fetch_from_an_odd_address :
    (tick 0x607F (State.reset.setPC 0x201)).map (fun t => (t.reg 0, t.PC)) = some (0x7F, 0x203) := by decide
theorem test_FLT1_empty_rom :
    (after (.cpuStep 0) State.reset).map (fun t => t.status) =
      some (.halted ⟨.unsupportedInstruction, some 0x0000, 0x200, some 0x0000⟩) := by decide
theorem test_FLT3_fetch_fault_wins :
    (after (.cpuStep 0) (State.reset.setPC 0xFFF)).map (fun t => t.status) =
      some (.halted ⟨.memOutOfBounds, some 0x1000, 0xFFF, none⟩) := by decide
theorem test_DEC7_unknown_opcode :
    statusAfter 0x5121 State.reset = some (.halted ⟨.unknownOpcode, some 0x5121, 0x200, some 0x5121⟩) := by decide

/-! ## Control flow -/

theorem test_CF1_jp : pcAfter 0x1234 State.reset = some 0x234 := by decide
theorem test_CF5_call :
    (tick 0x2300 (withDepth 11)).map (fun t => (t.stack.length, t.stack.getLast?, t.PC)) =
      some (12, some 0x202, 0x300) := by decide
theorem test_CF6_call_overflow :
    statusAfter 0x2300 (withDepth 12) = some (.halted ⟨.stackOverflow, none, 0x200, some 0x2300⟩) := by decide
theorem test_CF11_ret_pops_the_last :
    (tick 0x00EE (State.reset.setStack [0x202, 0x304])).map (fun t => (t.PC, t.stack)) = some (0x304, [0x202]) := by decide
theorem test_DEC4_ret_underflow :
    statusAfter 0x00EE State.reset = some (.halted ⟨.stackUnderflow, none, 0x200, some 0x00EE⟩) := by decide
theorem test_CF9_jp_v0_is_not_wrapped : pcAfter 0xBFFF (withV [(0, 0xFF)]) = some 0x10FE := by decide
theorem test_CF10_jp_v0_uses_v0 : pcAfter 0xB300 (withV [(0, 0x01), (3, 0x77)]) = some 0x301 := by decide
theorem test_CF12_CF13_se_imm :
    pcAfter 0x3342 (withV [(3, 0x42)]) = some 0x204 ∧ pcAfter 0x3342 (withV [(3, 0x41)]) = some 0x202 := by decide
theorem test_CF14_CF15_sne_imm :
    pcAfter 0x4342 (withV [(3, 0x41)]) = some 0x204 ∧ pcAfter 0x4342 (withV [(3, 0x42)]) = some 0x202 := by decide
theorem test_CF16_CF17_se_reg :
    pcAfter 0x5120 (withV [(1, 7), (2, 7)]) = some 0x204 ∧ pcAfter 0x5120 (withV [(1, 7), (2, 8)]) = some 0x202 := by
  decide
theorem test_CF19_CF20_sne_reg :
    pcAfter 0x9120 (withV [(1, 7), (2, 8)]) = some 0x204 ∧ pcAfter 0x9110 (withV [(1, 7)]) = some 0x202 := by decide
theorem test_CF23_sys :
    statusAfter 0x0123 State.reset =
      some (.halted ⟨.unsupportedInstruction, some 0x0123, 0x200, some 0x0123⟩) := by decide

/-! ## ALU -/

theorem test_ALU1_ld_imm : (tick 0x6A2F State.reset).map (fun t => t.reg 0xA) = some 0x2F := by decide
theorem test_ALU3_add_imm_keeps_vf : v1fAfter 0x7102 (withV [(1, 0xFF), (0xF, 0x77)]) = some (0x01, 0x77) := by decide
theorem test_ALU5_add_imm_to_vf : (tick 0x7F01 (withV [(0xF, 0xFF)])).map (fun t => t.reg 0xF) = some 0 := by decide
theorem test_ALU6_ld_reg : v1fAfter 0x8120 (withV [(2, 9)]) = some (9, 0) := by decide
theorem test_ALU7_or : v1fAfter 0x8121 (withV [(1, 0xF0), (2, 0x0C), (0xF, 0x55)]) = some (0xFC, 0x55) := by decide
theorem test_ALU8_and : v1fAfter 0x8122 (withV [(1, 0xF0), (2, 0x3C), (0xF, 0x55)]) = some (0x30, 0x55) := by decide
theorem test_ALU9_xor : v1fAfter 0x8123 (withV [(1, 0xF0), (2, 0x3C), (0xF, 0x55)]) = some (0xCC, 0x55) := by decide
theorem test_ALU12_ALU14_add :
    v1fAfter 0x8124 (withV [(1, 0xF0), (2, 0x20)]) = some (0x10, 1) ∧
    v1fAfter 0x8124 (withV [(1, 0x7F), (2, 0x80)]) = some (0xFF, 0) := by decide
theorem test_ALU16_ALU17_add_with_vf :
    (tick 0x8F14 (withV [(0xF, 0xFF), (1, 0x01)])).map (fun t => t.reg 0xF) = some 1 ∧
    v1fAfter 0x81F4 (withV [(0xF, 0x10), (1, 0x20)]) = some (0x30, 0) := by decide
theorem test_ALU18_ALU19_sub :
    v1fAfter 0x8125 (withV [(1, 0x10), (2, 0x20)]) = some (0xF0, 0) ∧
    v1fAfter 0x8125 (withV [(1, 5), (2, 5)]) = some (0, 1) := by decide
theorem test_ALU22_sub_from_vf :
    (tick 0x8F15 (withV [(0xF, 3), (1, 5)])).map (fun t => t.reg 0xF) = some 0 := by decide
theorem test_ALU23_ALU24_subn :
    v1fAfter 0x8127 (withV [(1, 0x20), (2, 0x10)]) = some (0xF0, 0) ∧
    v1fAfter 0x8127 (withV [(1, 0x03), (2, 0x05)]) = some (0x02, 1) := by decide
theorem test_ALU26_ALU28_shr :
    v1fAfter 0x8106 (withV [(1, 0xB3)]) = some (0x59, 1) ∧
    v1fAfter 0x8126 (withV [(1, 0x01), (2, 0xFF)]) = some (0, 1) := by decide
theorem test_ALU29_shr_of_vf : (tick 0x8FF6 (withV [(0xF, 0x05)])).map (fun t => t.reg 0xF) = some 1 := by decide
theorem test_ALU31_ALU32_shl :
    v1fAfter 0x810E (withV [(1, 0xB3)]) = some (0x66, 1) ∧ v1fAfter 0x810E (withV [(1, 0x7F)]) = some (0xFE, 0) := by
  decide
theorem test_ALU34_rnd :
    (match step ((State.reset.withFetchWord 16 0xC30F).setInputs [.cpuStep 0xB7]) with
      | .next t => some (t.reg 3)
      | .fault _ => none
      | .refused _ => none) = some 0x07 := by decide

/-! ## Address register and memory -/

theorem test_MEM1_ld_i : (tick 0xA2F0 State.reset).map (fun t => t.I) = some 0x2F0 := by decide
theorem test_MEM4_add_i :
    (tick 0xF21E (withIV 0xFF0 [(2, 0x0F)] [])).map (fun t => (t.I, t.reg 0xF)) = some (0xFFF, 0) := by decide
theorem test_MEM5_add_i_out_of_range :
    statusAfter 0xF21E (withIV 0xFF0 [(2, 0x20)] []) =
      some (.halted ⟨.indexOutOfRange, some 0x1010, 0x200, some 0xF21E⟩) := by decide
theorem test_MEM8_ld_f_ignores_the_upper_nibble :
    (tick 0xF029 (withV [(0, 0x1A)])).map (fun t => t.I) = some (BitVec.ofNat 12 (fontBase + 50)) := rfl
theorem test_MEM11_MEM13_bcd :
    bytesAfter 0xF033 (withIV 0x300 [(0, 157)] []) = some ([1, 5, 7], 0x300) ∧
    bytesAfter 0xF033 (withIV 0x300 [(0, 255)] []) = some ([2, 5, 5], 0x300) := by decide
theorem test_MEM16_bcd_out_of_bounds :
    statusAfter 0xF033 (withIV 0xFFE [(0, 1)] []) =
      some (.halted ⟨.memOutOfBounds, some 0x1000, 0x200, some 0xF033⟩) := by decide
theorem test_MEM17_st_regs :
    bytesAfter 0xF255 (withIV 0x300 [(0, 1), (1, 2), (2, 3)] []) = some ([1, 2, 3], 0x300) ∧
    bytesAfter 0xF055 (withIV 0x300 [(0, 0x44), (1, 2)] []) = some ([0x44, 0, 0], 0x300) := by decide
theorem test_MEM20_st_regs_out_of_bounds :
    statusAfter 0xF155 (withIV 0xFFF [] []) =
      some (.halted ⟨.memOutOfBounds, some 0x1000, 0x200, some 0xF155⟩) := by decide
theorem test_MEM21_ld_regs :
    (tick 0xF265 (withIV 0x300 [] [1, 5, 7])).map (fun t => (t.reg 0, t.reg 1, t.reg 2, t.reg 3, t.I)) =
      some (1, 5, 7, 0, 0x300) := by decide
theorem test_MEM24_ld_regs_out_of_bounds :
    statusAfter 0xF165 (withIV 0xFFF [] []) =
      some (.halted ⟨.memOutOfBounds, some 0x1000, 0x200, some 0xF165⟩) := by decide

/-! ## Timers -/

theorem test_TMR6_ld_vx_dt : (tick 0xF507 (State.reset.setDT 0x3C)).map (fun t => t.reg 5) = some 0x3C := by decide
theorem test_TMR1_ld_dt_vx :
    (tick 0xF515 (withV [(5, 5)])).map (fun t => (t.DT, t.ST)) = some (5, 0) := by decide
theorem test_TMR8_ld_st_vx :
    (tick 0xF018 (withV [(0, 0x10)])).map (fun t => (t.DT, soundOutput t)) = some (0, 0x10) := by decide
theorem test_TMR4_timer_step :
    (after .timerStep (State.reset.setST 3)).map (fun t => (t.DT, t.ST)) = some (0, 2) := by decide

/-! ## Keypad -/

theorem test_KEY1_KEY2_skp :
    pcAfter 0xE19E ((withV [(1, 0x15)]).setPressed 0x0020) = some 0x204 ∧
    pcAfter 0xE19E (withV [(1, 0x15)]) = some 0x202 := by decide
theorem test_KEY3_KEY4_sknp :
    pcAfter 0xE1A1 (withV [(1, 5)]) = some 0x204 ∧
    pcAfter 0xE1A1 ((withV [(1, 5)]).setPressed 0x0220) = some 0x202 := by decide
theorem test_KEY5_KEY7_KEY8_wait_pends :
    waitAfter 0xF30A State.reset = some (.awaitingPress, 0x200) ∧
    waitAfter 0xF30A (State.reset.setPressed 0x0200) = some (.awaitingRelease 9, 0x200) ∧
    waitAfter 0xF30A ((State.reset.setWait .awaitingPress).setPressed 0x1014) =
      some (.awaitingRelease 2, 0x200) := by decide
theorem test_KEY9_KEY10_wait_resolves_on_release :
    waitAfter 0xF30A ((State.reset.setWait (.awaitingRelease 2)).setPressed 0x0004) =
      some (.awaitingRelease 2, 0x200) ∧
    (tick 0xF30A ((State.reset.setWait (.awaitingRelease 2)).setPressed 0x1010)).map
      (fun t => (t.wait, t.reg 3, t.PC)) = some (.idle, 2, 0x202) := by decide
theorem test_KEY13_events_do_not_touch_the_wait :
    (after (.keyPress 1) (State.reset.setWait (.awaitingRelease 7))).map (fun t => (t.pressed, t.wait)) =
      some (0x0002, .awaitingRelease 7) ∧
    (after (.keyRelease 1) (State.reset.setPressed 0x0003)).map (fun t => t.pressed) = some 0x0001 := by decide

/-! ## Display -/

theorem test_DSP1_draw :
    (tick 0xD011 (withIV 0x300 [] [0xFF])).map (fun t => (onColumns t 0, onColumns t 1, t.reg 0xF)) =
      some ([0, 1, 2, 3, 4, 5, 6, 7], [], 0) := by decide
theorem test_DSP3_draw_wraps :
    (tick 0xD011 (withIV 0x300 [(0, 60)] [0xFF])).map (fun t => (onColumns t 0, t.reg 0xF)) =
      some ([0, 1, 2, 3, 60, 61, 62, 63], 0) := by decide
theorem test_DSP5_start_coordinates_wrap :
    (tick 0xD011 (withIV 0x300 [(0, 70), (1, 33)] [0x80])).map (fun t => (onColumns t 0, onColumns t 1)) =
      some ([], [6]) := by decide
theorem test_DSP6_DSP7_collision :
    (tick 0xD011 ((withIV 0x300 [] [0x10]).setLit (gridSet State.reset.lit 3 0 true))).map
      (fun t => (onColumns t 0, t.reg 0xF)) = some ([], 1) ∧
    (tick 0xD011 ((withIV 0x300 [] [0x0F]).setLit (gridSet State.reset.lit 3 0 true))).map
      (fun t => (onColumns t 0, t.reg 0xF)) = some ([3, 4, 5, 6, 7], 0) := by decide
theorem test_DSP8_glowing_pixel_does_not_collide :
    (tick 0xD011 ((withIV 0x300 [] [0x80]).setPhos (gridSet State.reset.phos 0 0 200))).map
      (fun t => (gridCell t.lit 0 0, gridCell t.phos 0 0, t.reg 0xF)) = some (true, 255, 0) := by decide
theorem test_DSP9_no_rows : (tick 0xD010 (withV [(0xF, 0x99)])).map (fun t => t.reg 0xF) = some 0 := by decide
theorem test_DSP10_draw_out_of_bounds :
    statusAfter 0xD013 (withIV 0xFFE [] []) =
      some (.halted ⟨.memOutOfBounds, some 0x1000, 0x200, some 0xD013⟩) := by decide
theorem test_DSP12_draw_at_old_vf :
    (tick 0xDF01 (withIV 0x300 [(0xF, 8)] [0x80])).map (fun t => (onColumns t 0, t.reg 0xF)) = some ([8], 0) := by
  decide
theorem test_DSP13_cls_keeps_phosphor :
    (tick 0x00E0 ((State.reset.setLit (gridSet State.reset.lit 3 0 true)).setPhos
      (gridSet State.reset.phos 3 0 255))).map
      (fun t => (onColumns t 0, gridCell t.phos 3 0)) = some ([], 255) := by decide

/-! ## A witness for every obligation with hypotheses

Each theorem shows states and operands that meet all the hypotheses of the clauses of the obligation it is named after,
at the boundary values of their ranges. -/

/-- A running state whose next `cpu_step` fetches a word. -/
def about (w : Nat) : State := State.reset.withFetchWord 16 w

/-- Whether a step answers a next state. -/
def stepsOn (s : State) : Bool :=
  match step s with
  | .next _ => true
  | .fault _ => false
  | .refused _ => false

theorem next_of_stepsOn {s : State} (h : stepsOn s = true) : ∃ t, step s = .next t := by
  unfold stepsOn at h
  split at h
  · exact ⟨_, ‹_›⟩
  · cases h
  · cases h

theorem witness_DecodeOfEncodeIsTheInstruction :
    (Instr.sys 0x0E1).wellFormed = true ∧ (Instr.sys 0xFFF).wellFormed = true ∧
    (Instr.drw 0xF 0xF 0xF).wellFormed = true := by decide
theorem witness_EncodeOfDecodeIsTheWord : decode 0x8126 = .ok (.shr 1 2) := by decide
theorem witness_EachWordMatchesOneTableRow :
    decode 0x0123 = .ok (.sys 0x123) ∧ 0x0123#16 &&& opcodeMask (.sys 0) = opcodeMatch (.sys 0) ∧
    (opcodeMatch (.sys 0) = 0 → (0x0123#16 ≠ 0x00E0 ∧ 0x0123#16 ≠ 0x00EE)) := by decide
theorem witness_StepRunsTheDecodedInstruction :
    (about 0x6A2F).isRunning ∧ (about 0x6A2F).PC.toNat + 1 ≤ 0xFFF ∧
    decodeBytes [(about 0x6A2F).M.read (about 0x6A2F).PC.toNat, (about 0x6A2F).M.read ((about 0x6A2F).PC.toNat + 1)] =
      .ok (.ldImm 0xA 0x2F, []) ∧ (about 0x6A2F).inputs = [] ∧
    ((about 0x6A2F).setInputs [.cpuStep 7]).inputs = [.cpuStep 7] := by
  refine ⟨rfl, ?_⟩
  decide
theorem witness_StepTakesTheHostsNextStep :
    State.reset.inputs = [] ∧ (State.reset.setInputs [.timerStep]).inputs = [.timerStep] := by decide
theorem witness_IllegalWordHaltsTheCore :
    (about 0x5121).isRunning ∧ (about 0x5121).PC.toNat + 1 ≤ 0xFFF ∧
    (0x5121 : Word).toNat = ((about 0x5121).M.read (about 0x5121).PC.toNat).toNat * 256 +
      ((about 0x5121).M.read ((about 0x5121).PC.toNat + 1)).toNat ∧
    decode 0x5121 = .error (.unknownOpcode 0x5121) := by
  refine ⟨rfl, ?_⟩
  decide
theorem witness_FetchReadsBigEndianOrFaults :
    0xFFE + 1 ≤ 0xFFF ∧ 0xFFF + 1 > 0xFFF ∧ (State.reset.setPC 0xFFF).isRunning ∧
    0xFFF ≤ (State.reset.setPC 0xFFF).PC.toNat ∧ 0xFFF ≤ (State.reset.setPC 0xFFFF).PC.toNat := by
  refine ⟨by decide, by decide, rfl, ?_⟩
  decide
theorem witness_HaltedCoreStaysHaltedUntilReset :
    halted.status = .halted ⟨.stackOverflow, none, 0x200, some 0x2200⟩ ∧ (∀ rom, HostStep.keyPress 1 ≠ .reset rom) ∧
    (List.replicate 3584 (0 : Byte)).length ≤ 3584 := by
  refine ⟨rfl, by simp, ?_⟩
  rw [List.length_replicate]
theorem witness_EachInstructionRaisesOnlyItsOwnFault :
    haltsNow (.sys 0x123) State.reset = true ∧ haltsNow .ret State.reset = true ∧
    haltsNow (.call 0x300) (withDepth 12) = true ∧ haltsNow (.addI 2) (withIV 0xFF1 [(2, 0x0F)] []) = true ∧
    haltsNow (.drw 0 1 2) (withIV 0xFFF [] []) = true ∧ haltsNow (.ldB 0) (withIV 0xFFE [] []) = true ∧
    haltsNow (.stRegs 1) (withIV 0xFFF [] []) = true ∧ haltsNow (.ldRegs 1) (withIV 0xFFF [] []) = true := by decide
theorem witness_SysHaltsAsUnsupported :
    (0x0E1 : Addr) ≠ 0x0E0 ∧ (0x0E1 : Addr) ≠ 0x0EE ∧ (0x000 : Addr) ≠ 0x0E0 ∧ (0x000 : Addr) ≠ 0x0EE := by decide
theorem witness_OnlyAnOversizeRomIsRefused :
    (∀ rom rest, State.reset.inputs = .reset rom :: rest → rom.length ≤ 3584) ∧
    (List.replicate 3584 (0 : Byte)).length ≤ 3584 ∧ 3584 < (List.replicate 3585 (0 : Byte)).length := by
  refine ⟨fun _ _ h => (nomatch h), ?_, ?_⟩ <;> rw [List.length_replicate]
  decide
theorem witness_RetPopsTheReturnAddress :
    (State.reset.setStack [0x202, 0x204]).stack = [0x202] ++ [0x204] ∧ State.reset.stack = [] := by decide
theorem witness_CallPushesTheReturnAddress :
    (withDepth 11).stack.length < 12 ∧ 12 ≤ (withDepth 12).stack.length := by decide
theorem witness_CallThenRetComesBack :
    (withDepth 11).stack.length < 12 ∧ ∃ t, exec (.call 0x300) (withDepth 11) = .next t := ⟨by decide, _, rfl⟩
theorem witness_SkipsCompareAndStepOverOneWord :
    (withV [(1, 7), (2, 7)]).reg 1 = 7 ∧ (withV [(1, 7), (2, 7)]).reg 1 ≠ 8 ∧
    (withV [(1, 7), (2, 7)]).reg 1 = (withV [(1, 7), (2, 7)]).reg 2 ∧
    (withV [(1, 7), (2, 7)]).reg 1 ≠ (withV [(1, 7), (2, 7)]).reg 0 := by decide
theorem witness_AddRegistersSetsCarry :
    (1 : Reg) ≠ 0xF ∧ ((withV [(1, 0xFF), (2, 1)]).reg 1).toNat + ((withV [(1, 0xFF), (2, 1)]).reg 2).toNat > 255 ∧
    ¬((withV [(1, 0xFE), (2, 1)]).reg 1).toNat + ((withV [(1, 0xFE), (2, 1)]).reg 2).toNat > 255 := by decide
theorem witness_SubtractSetsNoBorrow :
    (1 : Reg) ≠ 0xF ∧ ((withV [(1, 5), (2, 5)]).reg 1).toNat ≥ ((withV [(1, 5), (2, 5)]).reg 2).toNat ∧
    ¬((withV [(1, 4), (2, 5)]).reg 1).toNat ≥ ((withV [(1, 4), (2, 5)]).reg 2).toNat := by decide
theorem witness_ReverseSubtractSetsNoBorrow :
    (1 : Reg) ≠ 0xF ∧ ((withV [(1, 5), (2, 5)]).reg 2).toNat ≥ ((withV [(1, 5), (2, 5)]).reg 1).toNat ∧
    ¬((withV [(1, 5), (2, 4)]).reg 2).toNat ≥ ((withV [(1, 5), (2, 4)]).reg 1).toNat := by decide
theorem witness_ShiftsMoveVxByOne : (0 : Reg) ≠ 0xF ∧ (0xE : Reg) ≠ 0xF := by decide
theorem witness_RandomMasksTheDrawnByte : (State.reset.setRndIn (some 0xB7)).rndIn = some 0xB7 := by decide
theorem witness_AddToIndexOrHalts :
    (withIV 0xFF0 [(2, 0x0F)] []).I.toNat + ((withIV 0xFF0 [(2, 0x0F)] []).reg 2).toNat ≤ 0xFFF ∧
    (withIV 0xFF1 [(2, 0x0F)] []).I.toNat + ((withIV 0xFF1 [(2, 0x0F)] []).reg 2).toNat > 0xFFF := by decide
theorem witness_BcdStoresThreeDigits :
    Memory.wf (State.reset.setI 0xFFD).M = true ∧ (State.reset.setI 0xFFD).I.toNat + 2 ≤ 0xFFF ∧
    (State.reset.setI 0xFFE).I.toNat + 2 > 0xFFF := by decide
theorem witness_RangeStoreStoresV0ToVx :
    Memory.wf (State.reset.setI 0xFF0).M = true ∧ (State.reset.setI 0xFF0).I.toNat + (0xF : Reg).toNat ≤ 0xFFF ∧
    (State.reset.setI 0xFF1).I.toNat + (0xF : Reg).toNat > 0xFFF := by decide
theorem witness_RangeLoadLoadsV0ToVx :
    (State.reset.setI 0xFF0).I.toNat + (0xF : Reg).toNat ≤ 0xFFF ∧
    (State.reset.setI 0xFF1).I.toNat + (0xF : Reg).toNat > 0xFFF := by decide
theorem witness_RangeStoreIsSeenByTheNextFetch :
    Memory.wf (State.reset.setI 0xFFE).M = true ∧ 1 ≤ (1 : Reg).toNat ∧
    (State.reset.setI 0xFFE).I.toNat + (1 : Reg).toNat ≤ 0xFFF := by decide
theorem witness_KeySkipsAskTheLowNibble :
    ((withV [(1, 0x1F)]).setPressed 0x8000).pressed.getLsbD
      ((((withV [(1, 0x1F)]).setPressed 0x8000).reg 1).toNat % 16) = true ∧
    ((withV [(1, 0x1F)]).setPressed 0x7FFF).pressed.getLsbD
      ((((withV [(1, 0x1F)]).setPressed 0x7FFF).reg 1).toNat % 16) = false := by decide
theorem witness_KeyWaitFollowsTheTransitionTable :
    (State.reset.wait = .idle ∧ State.reset.pressed = 0) ∧
    (State.reset.setWait .awaitingPress).wait = .awaitingPress ∧
    ((State.reset.setPressed 0xC000).pressed.getLsbD (0xE : Key).toNat = true ∧
      ∀ j, j < (0xE : Key).toNat → (State.reset.setPressed 0xC000).pressed.getLsbD j = false) ∧
    ((State.reset.setWait (.awaitingRelease 0xF)).wait = .awaitingRelease 0xF ∧
      ((State.reset.setWait (.awaitingRelease 0xF)).setPressed 0x8000).pressed.getLsbD (0xF : Key).toNat = true ∧
      ((State.reset.setWait (.awaitingRelease 0xF)).setPressed 0x7FFF).pressed.getLsbD (0xF : Key).toNat = false) := by
  decide
theorem witness_DrawTogglesExactlyTheSpritePixels :
    (withIV 0xFFE [] []).I.toNat + (2 : BitVec 4).toNat ≤ 0x1000 ∧ 1 ≤ (2 : BitVec 4).toNat ∧
    (withIV 0xFFF [] []).I.toNat + (2 : BitVec 4).toNat - 1 > 0xFFF ∧
    SpriteHits (withIV 0x300 [] [0x80]) 63 31 1 63 31 ∧ gridCell (withIV 0x300 [] [0x80]).lit 63 31 = false ∧
    gridCell (gridSet State.reset.lit 63 31 true) 63 31 = true ∧
    ¬SpriteHits (withIV 0x300 [] [0x80]) 63 31 1 0 0 := by
  refine ⟨by decide, by decide, by decide, ⟨0, by decide, 0, by decide⟩, by decide, by decide, ?_⟩
  rintro ⟨r, hr, c, hc, hb, hx, hy⟩
  have h0 : r = 0 := by omega
  subst h0
  simp at hy
theorem witness_DrawingTwiceRestoresThePixels :
    (0 : Reg) ≠ 0xF ∧ (1 : Reg) ≠ 0xF ∧ (withIV 0x300 [] [0xFF]).I.toNat + (1 : BitVec 4).toNat ≤ 0x1000 ∧
    (∃ t, exec (.drw 0 1 1) (withIV 0x300 [] [0xFF]) = .next t ∧ t.reg 0xF = 0) ∧
    ∃ r, r < (1 : BitVec 4).toNat ∧ (withIV 0x300 [] [0xFF]).M.read ((withIV 0x300 [] [0xFF]).I.toNat + r) ≠ 0 := by
  refine ⟨by decide, by decide, by decide, ⟨_, rfl, by decide⟩, 0, by decide⟩
theorem witness_PhosphorNeverAffectsAnInstruction :
    State.reset.isRunning ∧ ∃ t, exec (.ldImm 1 2) State.reset = .next t ∧ t.isRunning := ⟨rfl, _, rfl, rfl⟩
theorem witness_RenderStepDecaysThenMaps :
    gridCell State.reset.lit 0 0 = false ∧ gridCell (gridSet State.reset.lit 0 0 true) 0 0 = true := by decide
theorem witness_PhosphorDecaysByTheLaw :
    gridCell State.reset.lit 0 0 = false ∧ gridCell (gridSet State.reset.lit 0 0 true) 0 0 = true ∧
    State.reset.isRunning ∧ ∃ t, exec (.ldImm 1 2) State.reset = .next t ∧ t.isRunning :=
  ⟨by decide, by decide, rfl, _, rfl, rfl⟩
theorem witness_ResetLeavesTheValuesOfTheTable :
    0xFFF < 0x1000 ∧ fontBase + 80 ≤ 0xFFF ∧ 0x200 + ([] : List Byte).length ≤ 0xFFF := by
  have := fontBase_le
  simp
  omega
theorem witness_ResetLoadsTheRom :
    (List.replicate 3584 (0 : Byte)).length ≤ 3584 ∧ ([] : List Byte).length ≤ 3584 ∧
    3584 < (List.replicate 3585 (0 : Byte)).length ∧ 0 < [(0x22 : Byte)].length := by
  rw [List.length_replicate, List.length_replicate]
  decide
theorem witness_StepKeepsTheStateLegal : State.reset.legal ∧ ∃ t, step (about 0x6A2F) = .next t :=
  ⟨by unfold State.legal; decide, next_of_stepsOn (by decide)⟩
theorem witness_StepKeepsOnPixelsGlowing :
    (about 0x6A2F).onPixelsGlow ∧ ∃ t, step (about 0x6A2F) = .next t := by
  refine ⟨?_, next_of_stepsOn (by decide)⟩
  intro _ x y h
  have : (about 0x6A2F).lit = State.reset.lit := rfl
  simp [this, gridCell, State.reset, Vector.get_eq_getElem] at h
theorem witness_StepKeepsTheWaitAtItsInstruction :
    ((about 0xF30A).setWait .awaitingPress).waitIsAtItsInstruction ∧
    ((about 0xF30A).setWait .awaitingPress).wait ≠ .idle ∧
    ∃ t, step ((about 0xF30A).setWait .awaitingPress) = .next t :=
  ⟨fun _ _ => ⟨0xF30A, 3, rfl, rfl⟩, by decide, next_of_stepsOn (by decide)⟩
theorem witness_StepKeepsThePcInRange :
    ((about 0x6A2F).setStack [0x002, 0x1000]).pcInRange ∧
    ∃ t, step ((about 0x6A2F).setStack [0x002, 0x1000]) = .next t := by
  unfold State.pcInRange
  exact ⟨fun _ => ⟨by decide, by simp⟩, next_of_stepsOn (by decide)⟩
theorem witness_PartsChangeOnlyByTheirInstructions :
    State.reset.isRunning ∧ ∃ t, exec (.ldI 0x300) State.reset = .next t ∧ t.isRunning ∧ t.I ≠ State.reset.I :=
  ⟨rfl, _, rfl, rfl, by decide⟩
theorem witness_VfChangesOnlyAsAFlagOrADestination :
    State.reset.isRunning ∧
    ∃ t, exec (.ldImm 0xF 1) State.reset = .next t ∧ t.isRunning ∧ t.reg 0xF ≠ State.reset.reg 0xF :=
  ⟨rfl, _, rfl, rfl, by decide⟩

end Sys2Proof.Tests
end

section
/-! The reset and its ROM: what memory reads as afterwards, the reset values, and the first `cpu_step` of an empty ROM
(10_state.md section 12, 70_reset_and_hazards.md section 1). -/

namespace Sys2Proof.Machine

/-! ## Memory after a reset -/

/-- The font is where FONT_BASE says (R134). -/
theorem Memory.unlisted_font (g : Fin 80) : Memory.unlisted (fontBase + g.val) = Config.fontTable g := by
  rw [Memory.unlisted_eq, if_pos ⟨by omega, by omega⟩, Nat.add_sub_cancel_left, fontByte, dif_pos g.isLt]

/-- Outside the font an unlisted byte is 0. -/
theorem Memory.unlisted_outside_font {a : Nat} (h : a < fontBase ∨ fontBase + 80 ≤ a) : Memory.unlisted a = 0 := by
  rw [Memory.unlisted_eq, if_neg (by omega)]

/-- A ROM that fits reads back from 0x200 on, and every other address as an unlisted one. -/
theorem Memory.read_rom {rom : List Byte} (hl : rom.length ≤ 3584) (a : Nat) :
    (Memory.writeList [] 0x200 rom).read a =
      if 0x200 ≤ a then (rom[a - 0x200]?).getD (Memory.unlisted a) else Memory.unlisted a :=
  (Memory.writeList_spec rom [] 0x200 rfl (by unfold memSize; omega)).2 a

theorem Memory.read_rom_byte {rom : List Byte} (hl : rom.length ≤ 3584) {j : Nat} (hj : j < rom.length) :
    (Memory.writeList [] 0x200 rom).read (0x200 + j) = rom[j] := by
  simp [Memory.read_rom hl, hj]

theorem Memory.read_rom_outside {rom : List Byte} (hl : rom.length ≤ 3584) {a : Nat}
    (ha : a < 0x200 ∨ 0x200 + rom.length ≤ a) :
    (Memory.writeList [] 0x200 rom).read a = Memory.unlisted a := by
  rw [Memory.read_rom hl]
  split
  · next h => rw [List.getElem?_eq_none (by omega), Option.getD_none]
  · rfl

/-! ## The parts besides memory -/

/-- Every cell of a grid that repeats one value holds that value. -/
@[simp] theorem gridCell_replicate {α : Type} (v : α) (x : Fin 64) (y : Fin 32) :
    gridCell (Vector.replicate 64 (Vector.replicate 32 v)) x y = v := by
  simp [gridCell, Vector.get_eq_getElem]

@[simp] theorem State.reset_reg (x : Reg) : State.reset.reg x = 0 := by
  simp [State.reg, State.reset, Vector.get_eq_getElem]

/-- The reset values do not depend on memory, on the host's steps still to happen or on the count of free values. -/
theorem State.reset_hasResetValues (m : Memory) (l : List HostStep) (n : Nat) :
    State.hasResetValues { State.reset with M := m, inputs := l, freeCount := n } :=
  ⟨State.reset_reg, rfl, rfl, rfl, rfl, rfl, gridCell_replicate false, gridCell_replicate 0, rfl, rfl, rfl, rfl⟩

/-! ## The word 0x0000 -/

/-- 0NNN raises UnsupportedInstruction with its own word (R67). -/
theorem exec_sys (nnn : Addr) (s : State) :
    exec (.sys nnn) s = .next (takeFault ⟨.unsupportedInstruction, some (encode (.sys nnn)).toNat⟩ (s.PC - 2)
      (some (encode (.sys nnn))) s) := rfl

/-- A `cpu_step` on the word 0x0000 halts with UnsupportedInstruction at the word's own address. -/
theorem cpuStep_zero_word {s : State} (hr : s.isRunning) (hw : fetch16 s.PC.toNat s = .ok 0) (rnd : Option Byte) :
    ∃ u, cpuStep rnd s = .next u ∧ u.status = .halted ⟨.unsupportedInstruction, some 0, s.PC, some 0⟩ := by
  have hd : decode 0 = .ok (.sys 0) := by decide
  have he : encode (.sys 0) = 0 := by decide
  refine ⟨_, (cpuStep_of_decode hr hw hd).trans (exec_sys 0 _), ?_⟩
  rw [takeFault_status, he]
  simp [fetched]

/-- With nothing listed in memory the word at 0x200 is 0x0000. -/
theorem fetch16_rom_base_of_empty {s : State} (hm : s.M = []) : fetch16 0x200 s = .ok 0 := by
  rw [fetch16, hm]
  decide

/-! ## The obligation -/

/-- Settles O44: the ROM is written over the font and zeros by `Memory.writeList`, whose reads are known address by
address, and the font ends below the ROM. -/
theorem resetLoadsTheRom : Obligations.ResetLoadsTheRom := by
  refine ⟨fontBase_le, fun s rom => ?_⟩
  rcases resetWith_cases rom s with ⟨hl, he⟩ | ⟨hl, he⟩
  · refine ⟨fun _ => ⟨_, he, State.reset_hasResetValues _ _ _, fun g => ?_, fun j hj => Memory.read_rom_byte hl hj,
      fun a _ hfont hrom => ?_, rfl, fun hnil rnd => ?_⟩, fun h => by omega⟩
    · have hf := fontBase_le
      exact (Memory.read_rom_outside hl (.inl (by omega))).trans (Memory.unlisted_font g)
    · exact (Memory.read_rom_outside hl hrom).trans (Memory.unlisted_outside_font hfont)
    · subst hnil
      refine cpuStep_zero_word ?_ ?_ rnd
      · rfl
      · exact fetch16_rom_base_of_empty rfl
  · exact ⟨fun h => by omega, fun _ => he⟩

end Sys2Proof.Machine
end

section
/-! The fetch: a big-endian word below 0xFFF, a fault from there on, and the `cpu_step` that takes the fault
(20_memory.md section 1, 30_encoding.md section 5). -/

namespace Sys2Proof.Machine

/-- A fetch that has both its bytes in memory (R40). -/
theorem fetch16_inside {a : Nat} (h : a + 1 < 0x1000) (s : State) :
    fetch16 a s = .ok (wordOfBytes (s.M.read a) (s.M.read (a + 1))) := by
  rcases fetch16_cases a s with ⟨_, he⟩ | ⟨ho, _⟩
  · exact he
  · omega

/-- A fetch whose low byte is above the top of memory (R40). -/
theorem fetch16_outside {a : Nat} (h : 0x1000 ≤ a + 1) (s : State) :
    fetch16 a s = .error ⟨.memOutOfBounds, some (max a 0x1000)⟩ := by
  rcases fetch16_cases a s with ⟨hi, _⟩ | ⟨_, he⟩
  · omega
  · exact he

/-- A fault of the fetch is taken at PC, with no word (R64). -/
theorem cpuStep_of_fetch_error {s : State} {e : Raised} (hr : s.isRunning) (he : fetch16 s.PC.toNat s = .error e)
    (rnd : Option Byte) : cpuStep rnd s = .next (takeFault e s.PC none s) := by
  unfold State.isRunning at hr
  simp only [cpuStep, hr, he]

/-- Settles O9: a fetch reads two bytes inside memory or faults, and a running core takes that fault at PC before
there is a word to record. -/
theorem fetchReadsBigEndianOrFaults : Obligations.FetchReadsBigEndianOrFaults := by
  refine ⟨fun s addr h => ?_, fun s addr h => ?_, fun s rnd hr hpc => ?_⟩
  · exact ⟨_, fetch16_inside (by omega) s, toNat_wordOfBytes _ _⟩
  · exact fetch16_outside (by omega) s
  · have hf := fetch16_outside (show 0x1000 ≤ s.PC.toNat + 1 by omega) s
    exact ⟨_, cpuStep_of_fetch_error hr hf rnd, takeFault_status _ _ _ _⟩

end Sys2Proof.Machine
end

section
/-! Which words the decoder refuses, class by class, and that it answers every word (30_encoding.md R57, R58). -/

namespace Sys2Proof

/-! ## Refused exactly when -/

/-- The decoder's answer `r` to the word `w` refuses that very word where `P` holds, and is an instruction elsewhere. -/
def RefusedIff (w : Word) (r : Except DecodeError Instr) (P : Prop) : Prop :=
  (P → r = .error (.unknownOpcode w)) ∧ (¬P → ∃ i, r = .ok i)

section
variable {w : Word} {r : Except DecodeError Instr} {P Q p : Prop}

theorem RefusedIff.ok {i : Instr} (h : ¬P) : RefusedIff w (.ok i) P := ⟨fun hp => absurd hp h, fun _ => ⟨i, rfl⟩⟩

theorem RefusedIff.error : RefusedIff w (.error (.unknownOpcode w)) True := ⟨fun _ => rfl, fun h => absurd trivial h⟩

/-- One more operation in front of `r`, chosen by `p`, takes the words with `p` out of the refused ones. -/
theorem RefusedIff.ite_ok [Decidable p] {i : Instr} (h : RefusedIff w r P) :
    RefusedIff w (if p then .ok i else r) (¬p ∧ P) := by
  by_cases hp : p
  · rw [if_pos hp]
    exact .ok fun hq => hq.1 hp
  · simpa [hp] using h

theorem RefusedIff.congr (h : RefusedIff w r P) (hPQ : P ↔ Q) : RefusedIff w r Q := propext hPQ ▸ h

theorem RefusedIff.ok_or_error (h : RefusedIff w r P) : (∃ i, r = .ok i) ∨ r = .error (.unknownOpcode w) :=
  (Classical.em P).symm.imp h.2 h.1

theorem RefusedIff.eq_error_iff (h : RefusedIff w r P) : r = .error (.unknownOpcode w) ↔ P := by
  refine ⟨fun he => ?_, h.1⟩
  by_contra hp
  obtain ⟨i, hi⟩ := h.2 hp
  simp [he] at hi

end

/-! ## What each class refuses -/

/-- Classes 5 and 9: one operation, with N = 0. -/
theorem onlyZeroN_refusedIff (w : Word) (i : Instr) :
    RefusedIff w (if nOf w = 0x0 then .ok i else .error (.unknownOpcode w)) ((nOf w).toNat ≠ 0) :=
  .congr (.ite_ok .error) (by simp [BitVec.toNat_eq])

/-- Class 8: the nine values of N with an operation leave these seven. -/
theorem decodeClass8_refusedIff (w : Word) :
    RefusedIff w (decodeClass8 w) ((nOf w).toNat ∈ [8, 9, 0xA, 0xB, 0xC, 0xD, 0xF]) := by
  have hN : ∀ n : BitVec 4, (¬n = 0x0 ∧ ¬n = 0x1 ∧ ¬n = 0x2 ∧ ¬n = 0x3 ∧ ¬n = 0x4 ∧ ¬n = 0x5 ∧ ¬n = 0x6 ∧ ¬n = 0x7 ∧
      ¬n = 0xE ∧ True) ↔ n.toNat ∈ [8, 9, 0xA, 0xB, 0xC, 0xD, 0xF] := by decide
  unfold decodeClass8
  exact .congr (.ite_ok <| .ite_ok <| .ite_ok <| .ite_ok <| .ite_ok <| .ite_ok <| .ite_ok <| .ite_ok <| .ite_ok .error)
    (hN (nOf w))

theorem decodeClassE_refusedIff (w : Word) : RefusedIff w (decodeClassE w) ((nnOf w).toNat ∉ [0x9E, 0xA1]) := by
  unfold decodeClassE
  exact .congr (.ite_ok <| .ite_ok .error) (by simp [BitVec.toNat_eq])

theorem decodeClassF_refusedIff (w : Word) : RefusedIff w (decodeClassF w)
    ((nnOf w).toNat ∉ [0x07, 0x0A, 0x15, 0x18, 0x1E, 0x29, 0x33, 0x55, 0x65]) := by
  unfold decodeClassF
  exact .congr (.ite_ok <| .ite_ok <| .ite_ok <| .ite_ok <| .ite_ok <| .ite_ok <| .ite_ok <| .ite_ok <| .ite_ok .error)
    (by simp [BitVec.toNat_eq])

/-! ## Decode by class -/

section
variable {w : Word}

theorem decode_of_class5 (h : classOf w = 0x5) :
    decode w = if nOf w = 0x0 then .ok (.seReg (xOf w) (yOf w)) else .error (.unknownOpcode w) := by simp [decode, h]

theorem decode_of_class8 (h : classOf w = 0x8) : decode w = decodeClass8 w := by simp [decode, h]

theorem decode_of_class9 (h : classOf w = 0x9) :
    decode w = if nOf w = 0x0 then .ok (.sneReg (xOf w) (yOf w)) else .error (.unknownOpcode w) := by simp [decode, h]

theorem decode_of_classE (h : classOf w = 0xE) : decode w = decodeClassE w := by simp [decode, h]

theorem decode_of_classF (h : classOf w = 0xF) : decode w = decodeClassF w := by simp [decode, h]

/-- The other eleven classes have no illegal word. -/
theorem decode_eq_ok_of_class (h : classOf w ∉ [0x5, 0x8, 0x9, 0xE, 0xF]) : ∃ i, decode w = .ok i := by
  have hrest : ∀ c : BitVec 4, c ∉ [0x5, 0x8, 0x9, 0xE, 0xF] →
      c ∈ [0x0, 0x1, 0x2, 0x3, 0x4, 0x6, 0x7, 0xA, 0xB, 0xC, 0xD] := by decide
  have hc := hrest _ h
  simp only [List.mem_cons, List.not_mem_nil, or_false] at hc
  rcases hc with hc | hc | hc | hc | hc | hc | hc | hc | hc | hc | hc <;> simp [decode, hc]

end

/-! ## The obligation -/

/-- Settles O4: the five classes with illegal words refuse one row of the table each, and the other classes refuse
nothing. -/
theorem illegalWordsAreExactlyTheTable : Obligations.IllegalWordsAreExactlyTheTable := by
  intro w
  suffices h : RefusedIff w (decode w) _ from ⟨h.ok_or_error, h.eq_error_iff⟩
  rw [← toNat_classOf, ← toNat_nOf, ← toNat_nnOf]
  by_cases hc : classOf w ∈ [0x5, 0x8, 0x9, 0xE, 0xF]
  · simp only [List.mem_cons, List.not_mem_nil, or_false] at hc
    rcases hc with h | h | h | h | h
    · exact decode_of_class5 h ▸ (onlyZeroN_refusedIff w _).congr (by simp [h])
    · exact decode_of_class8 h ▸ (decodeClass8_refusedIff w).congr (by simp [h])
    · exact decode_of_class9 h ▸ (onlyZeroN_refusedIff w _).congr (by simp [h])
    · exact decode_of_classE h ▸ (decodeClassE_refusedIff w).congr (by simp [h])
    · exact decode_of_classF h ▸ (decodeClassF_refusedIff w).congr (by simp [h])
  · obtain ⟨i, hi⟩ := decode_eq_ok_of_class hc
    rw [hi]
    refine .ok ?_
    rintro (⟨h, -⟩ | ⟨h, -⟩ | ⟨h, -⟩ | ⟨h, -⟩ | ⟨h, -⟩) <;> exact hc (by simp [BitVec.toNat_eq, h])

end Sys2Proof
end

section
/-! Control flow without the stack: the machine-routine call, the jumps and the skips (40_control_flow.md R67, R69,
R71 to R75). -/

namespace Sys2Proof

/-- Words of format NNN differ where their addresses do. -/
theorem formatNNN_inj (c : BitVec 4) {nnn mmm : Addr} : formatNNN c nnn = formatNNN c mmm ↔ nnn = mmm :=
  ⟨fun h => by simpa using congrArg nnnOf h, fun h => h ▸ rfl⟩

/-- SYS is read back from its word, unless that word is CLS or RET (R59). -/
theorem decode_encode_sys {nnn : Addr} (hcls : nnn ≠ 0x0E0) (hret : nnn ≠ 0x0EE) :
    decode (encode (.sys nnn)) = .ok (.sys nnn) := by
  have h0E0 : formatNNN 0#4 nnn ≠ 0x00E0#16 := mt (formatNNN_inj 0 (mmm := 0x0E0)).1 hcls
  have h0EE : formatNNN 0#4 nnn ≠ 0x00EE#16 := mt (formatNNN_inj 0 (mmm := 0x0EE)).1 hret
  simp [decode, decodeClass0, encode, h0E0, h0EE]

end Sys2Proof

namespace Sys2Proof.Machine

/-! ## Jump targets and skips -/

theorem toNat_targetOf (nnn : Addr) : (targetOf nnn).toNat = nnn.toNat := by
  rw [targetOf, BitVec.toNat_setWidth]
  omega

/-- The sum of BNNN is exact: 12 bits and 8 bits do not overflow 16 (R71). -/
theorem toNat_offsetTarget (nnn : Addr) (s : State) : (offsetTarget nnn s).toNat = nnn.toNat + (s.reg 0).toNat := by
  rw [offsetTarget, BitVec.toNat_add, BitVec.toNat_setWidth, BitVec.toNat_setWidth]
  omega

/-- What an instruction that answers `skipIf c` does, for a test `c` that is true where `P` holds and false where `Q`
does (R72). -/
theorem completes_of_skipIf {i : Instr} {s : State} {c : Bool} {P Q : Prop} (he : exec i s = .next (skipIf c s))
    (hP : c = true ↔ P) (hQ : c = false ↔ Q) :
    Completes i s fun t => (P → t.PC = s.PC + 2) ∧ (Q → t.PC = s.PC) ∧ Frame { PC := True } s t := by
  refine ⟨_, he, fun h => ?_, fun h => ?_, frame_skipIf s c⟩
  · rw [hP.2 h]
    rfl
  · rw [hQ.2 h]
    rfl

/-! ## The obligations -/

/-- Settles O13: the only words of format 0NNN that are not SYS are the two left out, and SYS raises its fault in every
state, with its own word, which is NNN, as info. -/
theorem sysHaltsAsUnsupported : Obligations.SysHaltsAsUnsupported := by
  intro nnn s hcls hret
  have hword : (encode (.sys nnn)).toNat = 0 * 4096 + nnn.toNat := toNat_formatNNN 0 nnn
  refine ⟨hword, decode_encode_sys hcls hret, _, exec_sys nnn s, ?_, takeFault_inputs _ _ _ s⟩
  rw [takeFault_status, hword, Nat.zero_mul, Nat.zero_add]

/-- Settles O17: both jumps write PC and nothing else, and neither target is reduced. -/
theorem jumpsSetThePc : Obligations.JumpsSetThePc := by
  intro nnn s
  refine ⟨⟨toNat_formatNNN 1 nnn, ?jp⟩, ⟨toNat_formatNNN 0xB nnn, ?jpV0⟩⟩
  case jp => exact ⟨s.setPC (targetOf nnn), rfl, toNat_targetOf nnn, frame_setPC s _⟩
  case jpV0 => exact ⟨s.setPC (offsetTarget nnn s), rfl, toNat_offsetTarget nnn s, frame_setPC s _⟩

/-- Settles O18: each of the four instructions answers `skipIf` of its own test. -/
theorem skipsCompareAndStepOverOneWord : Obligations.SkipsCompareAndStepOverOneWord := by
  intro x y nn s
  refine ⟨⟨toNat_formatXNN 3 x nn, ?seImm⟩, ⟨toNat_formatXNN 4 x nn, ?sneImm⟩,
    ⟨toNat_formatXYN 5 x y 0, ?seReg⟩, ⟨toNat_formatXYN 9 x y 0, ?sneReg⟩⟩
  case seImm => exact completes_of_skipIf rfl beq_iff_eq beq_eq_false_iff_ne
  case sneImm => exact completes_of_skipIf rfl bne_iff_ne bne_eq_false_iff_eq
  case seReg => exact completes_of_skipIf rfl beq_iff_eq beq_eq_false_iff_ne
  case sneReg => exact completes_of_skipIf rfl bne_iff_ne bne_eq_false_iff_eq

end Sys2Proof.Machine
end

section
/-! The ALU without the random byte: an instruction that writes VX alone, and one that writes a result to VX and then
a flag to VF (41_alu.md R77 to R88). -/

namespace Sys2Proof.Machine

/-! ## What a write to VX completes with -/

/-- The result stays in VX unless the flag, which is written last, takes its place (R77). -/
theorem State.reg_setResultThenFlag_of_ne (s : State) {x : Reg} (hx : x ≠ 0xF#4) (result flag : Byte) :
    (s.setResultThenFlag x result flag).reg x = result := by
  rw [State.reg_setResultThenFlag, if_neg hx, if_pos rfl]

/-- An instruction that writes VX alone completes with what holds of the value in VX. -/
theorem completes_of_setReg {i : Instr} {s : State} {x : Reg} {v : Byte} {R : Byte → Prop}
    (he : exec i s = .next (s.setReg x v)) (hR : R v) :
    Completes i s fun t => R (t.reg x) ∧ Frame { regs := (· = x) } s t := by
  refine ⟨_, he, ?_, frame_setReg s x v⟩
  rwa [State.reg_setReg, if_pos rfl]

/-- An instruction that writes a result and then a flag completes with what holds of the result in VX, unless VX is VF,
and with what holds of the flag in VF. -/
theorem completes_of_setResultThenFlag {i : Instr} {s : State} {x : Reg} {result flag : Byte} {R F : Byte → Prop}
    (he : exec i s = .next (s.setResultThenFlag x result flag)) (hR : R result) (hF : F flag) :
    Completes i s fun t => (x ≠ 0xF → R (t.reg x)) ∧ F (t.reg 0xF) ∧
      Frame { regs := fun r => r = x ∨ r = 0xF } s t := by
  have hvf : (s.setResultThenFlag x result flag).reg 0xF = flag := State.reg_vf_setResultThenFlag s x result flag
  refine ⟨_, he, fun hx => ?result, ?flag, frame_setResultThenFlag s x result flag⟩
  case result => rwa [State.reg_setResultThenFlag_of_ne s hx]
  case flag => rwa [hvf]

theorem flagOf_decide (P : Prop) [Decidable P] : flagOf (decide P) = if P then 1 else 0 := by simp [flagOf]

/-- The same for a flag that is the truth value of `P`: it is 1 where `P` holds and 0 where it does not. -/
theorem completes_of_flagOf {i : Instr} {s : State} {x : Reg} {result : Byte} {R : Byte → Prop} {P : Prop}
    [Decidable P] (he : exec i s = .next (s.setResultThenFlag x result (flagOf (decide P)))) (hR : R result) :
    Completes i s fun t => (x ≠ 0xF → R (t.reg x)) ∧ (P → t.reg 0xF = 1) ∧ (¬P → t.reg 0xF = 0) ∧
      Frame { regs := fun r => r = x ∨ r = 0xF } s t := by
  rw [flagOf_decide] at he
  obtain ⟨t, ht, hresult, ⟨hset, hclear⟩, hframe⟩ := completes_of_setResultThenFlag
    (F := fun f => (P → f = 1) ∧ (¬P → f = 0)) he hR ⟨fun hP => if_pos hP, fun hP => if_neg hP⟩
  exact ⟨t, ht, hresult, hset, hclear, hframe⟩

/-! ## Results and lost bits as numbers -/

/-- A difference of bytes is the difference of the integers modulo 256 (R85, R87). -/
theorem toNat_byte_sub (a b : Byte) : ((a - b).toNat : Int) = (a.toNat - b.toNat : Int) % 256 := by
  rw [BitVec.toNat_sub]
  omega

theorem toNat_shiftRight_one (a : Byte) : (a >>> 1).toNat = a.toNat / 2 := by
  rw [BitVec.toNat_ushiftRight, Nat.shiftRight_eq_div_pow, Nat.pow_one]

theorem toNat_shiftLeft_one (a : Byte) : (a <<< 1).toNat = a.toNat * 2 % 256 := by
  rw [BitVec.toNat_shiftLeft, Nat.shiftLeft_eq, Nat.pow_one]

theorem toNat_lostRightFlag (a : Byte) : (lostRightFlag a).toNat = a.toNat % 2 := by
  rw [lostRightFlag, BitVec.toNat_and]
  exact Nat.and_one_is_mod _

/-- Bit 7 is the byte divided by 128, which is below 2 (R88). -/
theorem toNat_lostLeftFlag (a : Byte) : (lostLeftFlag a).toNat = a.toNat / 128 := by
  have hbit : (lostLeftFlag a).toNat = a.toNat / 128 % 2 := by
    rw [lostLeftFlag, BitVec.toNat_and, BitVec.toNat_ushiftRight, Nat.shiftRight_eq_div_pow]
    exact Nat.and_one_is_mod _
  omega

/-! ## The obligations -/

/-- Settles O19: each of the three instructions writes VX and nothing else. -/
theorem loadsAndAddImmediateWriteOnlyVx : Obligations.LoadsAndAddImmediateWriteOnlyVx := by
  intro x y nn s
  refine ⟨⟨toNat_formatXNN 6 x nn, ?ldImm⟩, ⟨toNat_formatXNN 7 x nn, ?addImm⟩, ⟨toNat_formatXYN 8 x y 0, ?ldReg⟩⟩
  case ldImm => exact completes_of_setReg (R := (· = nn)) rfl rfl
  case addImm =>
    exact completes_of_setReg (R := fun v => v.toNat = ((s.reg x).toNat + nn.toNat) % 256) rfl (BitVec.toNat_add _ _)
  case ldReg => exact completes_of_setReg (R := (· = s.reg y)) rfl rfl

/-- Settles O20: each of the three instructions writes VX and nothing else, and acts on each bit by itself. -/
theorem bitwiseWritesOnlyVx : Obligations.BitwiseWritesOnlyVx := by
  intro x y s
  refine ⟨⟨toNat_formatXYN 8 x y 1, ?orReg⟩, ⟨toNat_formatXYN 8 x y 2, ?andReg⟩, ⟨toNat_formatXYN 8 x y 3, ?xorReg⟩⟩
  case orReg =>
    exact completes_of_setReg (R := fun v => ∀ k, v.getLsbD k = ((s.reg x).getLsbD k || (s.reg y).getLsbD k)) rfl
      fun _ => BitVec.getLsbD_or
  case andReg =>
    exact completes_of_setReg (R := fun v => ∀ k, v.getLsbD k = ((s.reg x).getLsbD k && (s.reg y).getLsbD k)) rfl
      fun _ => BitVec.getLsbD_and
  case xorReg =>
    exact completes_of_setReg (R := fun v => ∀ k, v.getLsbD k = ((s.reg x).getLsbD k ^^ (s.reg y).getLsbD k)) rfl
      fun _ => BitVec.getLsbD_xor

/-- Settles O21: the result is the sum of bytes, and the flag tests the exact sum. -/
theorem addRegistersSetsCarry : Obligations.AddRegistersSetsCarry := by
  intro x y s
  exact ⟨toNat_formatXYN 8 x y 4, completes_of_flagOf
    (R := fun v => v.toNat = ((s.reg x).toNat + (s.reg y).toNat) % 256) rfl (BitVec.toNat_add _ _)⟩

/-- Settles O22: the result is the difference VX - VY of bytes, and the flag compares the two. -/
theorem subtractSetsNoBorrow : Obligations.SubtractSetsNoBorrow := by
  intro x y s
  exact ⟨toNat_formatXYN 8 x y 5, completes_of_flagOf
    (R := fun v => (v.toNat : Int) = ((s.reg x).toNat - (s.reg y).toNat : Int) % 256) rfl (toNat_byte_sub _ _)⟩

/-- Settles O23: the result is the difference VY - VX of bytes, and the flag compares the two. -/
theorem reverseSubtractSetsNoBorrow : Obligations.ReverseSubtractSetsNoBorrow := by
  intro x y s
  exact ⟨toNat_formatXYN 8 x y 7, completes_of_flagOf
    (R := fun v => (v.toNat : Int) = ((s.reg y).toNat - (s.reg x).toNat : Int) % 256) rfl (toNat_byte_sub _ _)⟩

/-- Settles O24: both shifts move the old VX by one, and the flag is the bit that the shift drops. -/
theorem shiftsMoveVxByOne : Obligations.ShiftsMoveVxByOne := by
  intro x y s
  refine ⟨⟨toNat_formatXYN 8 x y 6, ?shr⟩, ⟨toNat_formatXYN 8 x y 0xE, ?shl⟩⟩
  case shr =>
    exact completes_of_setResultThenFlag (R := fun v => v.toNat = (s.reg x).toNat / 2)
      (F := fun f => f.toNat = (s.reg x).toNat % 2) rfl (toNat_shiftRight_one _) (toNat_lostRightFlag _)
  case shl =>
    exact completes_of_setResultThenFlag (R := fun v => v.toNat = (s.reg x).toNat * 2 % 256)
      (F := fun f => f.toNat = (s.reg x).toNat / 128) rfl (toNat_shiftLeft_one _) (toNat_lostLeftFlag _)

end Sys2Proof.Machine
end

section
/-! The address register, BCD, and the range store and load: an instruction that raises its fault, a store of
consecutive bytes, and a load of consecutive registers (42_index_memory.md R91 to R96). -/

namespace Sys2Proof.Machine

/-! ## What a fault, a store and a load complete with -/

/-- An instruction that answers a state in which it took a fault halts with that fault's record (R118). -/
theorem halts_of_takeFault {i : Instr} {s : State} {kind : FaultKind} {info : Option Nat}
    (he : exec i s = .next (takeFault ⟨kind, info⟩ (s.PC - 2) (some (encode i)) s)) : Halts i s kind info :=
  ⟨_, he, takeFault_status _ _ _ s, takeFault_inputs _ _ _ s⟩

/-- Address a + k holds entry k of the list written from a on. -/
theorem Memory.read_writeList_of_getElem? {m : Memory} {a k : Nat} {vs : List Byte} {v : Byte}
    (hm : Memory.wf m = true) (ha : a + vs.length ≤ memSize) (hk : vs[k]? = some v) :
    (m.writeList a vs).read (a + k) = v := by
  rw [(Memory.writeList_spec vs m a hm ha).2, if_pos (Nat.le_add_right a k), Nat.add_sub_cancel_left, hk,
    Option.getD_some]

/-- An instruction that stores n + 1 bytes from I on, the last of them inside memory, completes with each byte at its
address and nothing else changed (R94, R95). -/
theorem completes_of_setM_writeList {i : Instr} {s : State} {n : Nat} {vs : List Byte}
    (he : exec i s = .next (s.setM (s.M.writeList s.I.toNat vs))) (hm : Memory.wf s.M = true)
    (hl : vs.length = n + 1) (hn : s.I.toNat + n ≤ 0xFFF) :
    Completes i s fun t => (∀ k v, vs[k]? = some v → t.M.read (s.I.toNat + k) = v) ∧
      Frame { mem := fun a => s.I.toNat ≤ a ∧ a ≤ s.I.toNat + n } s t := by
  have hlast : s.I.toNat + n < memSize := Nat.lt_succ_of_le hn
  exact ⟨_, he, fun k v hk => Memory.read_writeList_of_getElem? hm (by omega) hk,
    frame_setM_writeList s n s.I.toNat vs hm hl hlast⟩

/-- Register k holds entry k of the list loaded from V0 on. -/
theorem State.reg_setRegsFrom_zero_of_getElem? (s : State) {bs : List Byte} {k : Reg} {b : Byte}
    (hl : bs.length ≤ 16) (hk : bs[k.toNat]? = some b) : (State.setRegsFrom 0 bs s).reg k = b := by
  rw [State.reg_setRegsFrom s 0 bs (by omega), if_pos (Nat.zero_le _), Nat.sub_zero, hk, Option.getD_some]

/-! ## Numbers, addresses and register lists -/

/-- A number that fits is kept as it is. -/
theorem toNat_ofNat_of_lt {w n : Nat} (h : n < 2 ^ w) : (BitVec.ofNat w n).toNat = n :=
  (BitVec.toNat_ofNat n w).trans (Nat.mod_eq_of_lt h)

/-- The address of a glyph, as a number (R93). -/
theorem glyphAddr_eq (v : Byte) : glyphAddr v = fontBase + v.toNat % 16 * 5 := by
  simp [glyphAddr, lowNibble, glyphBytes]

/-- A glyph's address fits in I, because the font lies below 0x200 (R136). -/
theorem toNat_ofNat_glyphAddr (v : Byte) : (BitVec.ofNat 12 (glyphAddr v)).toNat = fontBase + v.toNat % 16 * 5 := by
  have hf := fontBase_le
  rw [glyphAddr_eq, toNat_ofNat_of_lt (by omega)]

/-- V0 to VX are the list that FX55 stores, register k at place k. -/
theorem State.firstRegs_getElem?_toNat (s : State) {x k : Reg} (hk : k.toNat ≤ x.toNat) :
    (s.firstRegs (x.toNat + 1))[k.toNat]? = some (s.reg k) := by
  rw [State.getElem?_firstRegs s _ _ (Nat.lt_succ_of_le hk), BitVec.ofNat_toNat, BitVec.setWidth_eq]

/-! ## The obligations -/

/-- Settles O28: the three digits are the bytes stored from I on, and each of them fits in a byte. -/
theorem bcdStoresThreeDigits : Obligations.BcdStoresThreeDigits := by
  intro x s
  refine ⟨toNat_formatXNN 0xF x 0x33, ?_⟩
  rcases execLdB_cases x s with ⟨hin, he⟩ | ⟨hout, he⟩
  case inl =>
    refine ⟨fun hm _ => ?_, fun h => by omega⟩
    obtain ⟨t, ht, hread, hframe⟩ := completes_of_setM_writeList (i := .ldB x) he hm (n := 2) rfl hin
    refine ⟨t, ht, ?hundreds, ?tens, ?units, hframe⟩
    case hundreds => exact (congrArg BitVec.toNat (hread 0 _ rfl)).trans (toNat_ofNat_of_lt (by omega))
    case tens => exact (congrArg BitVec.toNat (hread 1 _ rfl)).trans (toNat_ofNat_of_lt (by omega))
    case units => exact (congrArg BitVec.toNat (hread 2 _ rfl)).trans (toNat_ofNat_of_lt (by omega))
  case inr => exact ⟨fun _ h => by omega, fun _ => halts_of_takeFault he⟩

/-- Settles O29: the bytes stored from I on are V0 to VX in this order. -/
theorem rangeStoreStoresV0ToVx : Obligations.RangeStoreStoresV0ToVx := by
  intro x s
  refine ⟨toNat_formatXNN 0xF x 0x55, ?_⟩
  rcases execStRegs_cases x s with ⟨hin, he⟩ | ⟨hout, he⟩
  case inl =>
    refine ⟨fun hm _ => ?_, fun h => by omega⟩
    obtain ⟨t, ht, hread, hframe⟩ :=
      completes_of_setM_writeList (i := .stRegs x) he hm (State.length_firstRegs s _) hin
    exact ⟨t, ht, fun k hk => hread k.toNat _ (s.firstRegs_getElem?_toNat hk), hframe⟩
  case inr => exact ⟨fun _ h => by omega, fun _ => halts_of_takeFault he⟩

/-- Settles O30: the bytes read from I on go into V0 to VX in this order, and registers are all that is written. -/
theorem rangeLoadLoadsV0ToVx : Obligations.RangeLoadLoadsV0ToVx := by
  intro x s
  have hx : x.toNat < 16 := x.isLt
  refine ⟨toNat_formatXNN 0xF x 0x65, ?_⟩
  rcases execLdRegs_cases x s with ⟨hin, he⟩ | ⟨hout, he⟩
  case inl =>
    refine ⟨fun _ => ⟨_, he, fun k hk => ?_, frame_setRegsFrom s x.toNat _ (by simp) hx⟩, fun h => by omega⟩
    exact s.reg_setRegsFrom_zero_of_getElem? (by simpa using hx) (by simp [Nat.lt_succ_of_le hk])
  case inr => exact ⟨fun h => by omega, fun _ => halts_of_takeFault he⟩

/-- Settles O26: both instructions write I and nothing else, and no glyph's address is reduced. -/
theorem loadIndexAndGlyphAddress : Obligations.LoadIndexAndGlyphAddress := by
  intro x nnn s
  refine ⟨⟨toNat_formatNNN 0xA nnn, ?ldI⟩, ⟨toNat_formatXNN 0xF x 0x29, ?ldF⟩⟩
  case ldI => exact ⟨s.setI nnn, rfl, s.setI_I nnn, frame_setI s nnn⟩
  case ldF => exact ⟨s.setI _, rfl, toNat_ofNat_glyphAddr (s.reg x), frame_setI s _⟩

/-- Settles O27: the exact sum is written where it fits in I, and is the info of the fault where it does not. -/
theorem addToIndexOrHalts : Obligations.AddToIndexOrHalts := by
  intro x s
  refine ⟨toNat_formatXNN 0xF x 0x1E, ?_⟩
  rcases execAddI_cases x s with ⟨hin, he⟩ | ⟨hout, he⟩
  case inl =>
    refine ⟨fun _ => ⟨_, he, ?_, frame_setI s _⟩, fun h => by omega⟩
    exact toNat_ofNat_of_lt (Nat.lt_succ_of_le hin)
  case inr => exact ⟨fun h => by omega, fun _ => halts_of_takeFault he⟩

end Sys2Proof.Machine
end

section
/-! The timer instructions: each moves one byte between VX and a timer (43_timers.md R97 to R99). -/

namespace Sys2Proof.Machine

/-- Settles O32: FX07 writes VX alone, and each of FX15 and FX18 writes its own timer alone. -/
theorem timerInstructionsMoveTheTimers : Obligations.TimerInstructionsMoveTheTimers := by
  intro x s
  refine ⟨⟨toNat_formatXNN 0xF x 0x07, ?ldVxDt⟩, ⟨toNat_formatXNN 0xF x 0x15, ?ldDtVx⟩,
    ⟨toNat_formatXNN 0xF x 0x18, ?ldStVx⟩⟩
  case ldVxDt => exact completes_of_setReg (R := (· = s.DT)) rfl rfl
  case ldDtVx => exact ⟨s.setDT (s.reg x), rfl, s.setDT_DT _, frame_setDT s _⟩
  case ldStVx => exact ⟨s.setST (s.reg x), rfl, s.setST_ST _, frame_setST s _⟩

end Sys2Proof.Machine
end

section
/-! The keypad: FX0A row by row of its transition table, the key skips, and the two key events (44_keypad.md R101, R104
to R107). -/

namespace Sys2Proof.Machine

/-! ## FX0A by the wait it finds -/

/-- With no candidate captured, one poll captures the smallest key that is down, or arms the wait where none is
(R104, rows 1 to 4). -/
theorem execLdVxK_of_no_candidate (x : Reg) {s : State} (hw : s.wait = .idle ∨ s.wait = .awaitingPress) :
    execLdVxK x s =
      .next ((s.setWait ((smallestKey s.pressed).elim .awaitingPress .awaitingRelease)).setPC (s.PC - 2)) := by
  rcases execLdVxK_cases x s with ⟨-, hp, he⟩ | ⟨k, -, hk, he⟩ | ⟨k, hr, -⟩ | ⟨k, hr, -⟩
  · rw [he, smallestKey_eq_none.mpr hp, Option.elim_none]
  · rw [he, hk, Option.elim_some]
  · simp [hr] at hw
  · simp [hr] at hw

/-- With a candidate captured, one poll asks whether that key is still down (R104, rows 5 and 6). -/
theorem execLdVxK_of_candidate (x : Reg) {s : State} {k : Key} (hw : s.wait = .awaitingRelease k) :
    execLdVxK x s = if keyDown k s then .next (s.setPC (s.PC - 2))
      else .next ((s.setWait .idle).setReg x (k.setWidth 8)) := by
  rcases execLdVxK_cases x s with ⟨hn, -⟩ | ⟨j, hn, -⟩ | ⟨j, hj, hdown, he⟩ | ⟨j, hj, hup, he⟩
  · simp [hw] at hn
  · simp [hw] at hn
  · obtain rfl : k = j := by simpa [hw] using hj
    rw [he, if_pos hdown]
  · obtain rfl : k = j := by simpa [hw] using hj
    rw [he, if_neg (Bool.eq_false_iff.mp hup)]

/-! ## What the writes of the keypad leave unchanged -/

theorem frame_setWait_setPC (s : State) (w : WaitState) (a : Word) :
    Frame { wait := True, PC := True } s ((s.setWait w).setPC a) := by simp [Frame]

theorem frame_setWait_setReg (s : State) (w : WaitState) (x : Reg) (v : Byte) :
    Frame { wait := True, regs := (· = x) } s ((s.setWait w).setReg x v) := by
  obtain ⟨hregs, -⟩ := frame_setReg s x v
  exact ⟨hregs, by simp⟩

theorem frame_setPressed (s : State) (p : BitVec 16) : Frame { pressed := True } s (s.setPressed p) := by simp [Frame]

/-- An instruction that leaves the wait pending in `w` rewinds PC to its own word (R107). -/
theorem completes_of_setWait_rewind {i : Instr} {s : State} {w : WaitState}
    (he : exec i s = .next ((s.setWait w).setPC (s.PC - 2))) :
    Completes i s fun t => t.wait = w ∧ t.PC = s.PC - 2 ∧ Frame { wait := True, PC := True } s t :=
  ⟨_, he, rfl, rfl, frame_setWait_setPC s w _⟩

/-! ## Keys as bits -/

/-- A key skip asks for the bit at VX mod 16 (R105). -/
theorem keyDown_lowNibble (v : Byte) (s : State) : keyDown (lowNibble v) s = s.pressed.getLsbD (v.toNat % 16) := by
  simp [keyDown, lowNibble]

/-- The bit of key k is set at k and at no other key. -/
theorem getLsbD_keyBit (j k : Key) : (BitVec.twoPow 16 k.toNat).getLsbD j.toNat = decide (j = k) := by
  have hk : k.toNat < 16 := k.isLt
  simp [BitVec.getLsbD_twoPow, hk, BitVec.toNat_eq, eq_comm]

/-- `key_press(k)` sets the bit of k and no other. -/
theorem getLsbD_keyPress (j k : Key) (s : State) :
    (keyPress k s).pressed.getLsbD j.toNat = (s.pressed.getLsbD j.toNat || decide (j = k)) := by
  rw [keyPress, State.setPressed_pressed, BitVec.getLsbD_or, getLsbD_keyBit]

/-- `key_release(k)` clears the bit of k and no other. -/
theorem getLsbD_keyRelease (j k : Key) (s : State) :
    (keyRelease k s).pressed.getLsbD j.toNat = (s.pressed.getLsbD j.toNat && !decide (j = k)) := by
  have hj : j.toNat < 16 := j.isLt
  rw [keyRelease, State.setPressed_pressed, BitVec.getLsbD_and, BitVec.getLsbD_not, getLsbD_keyBit, decide_eq_true hj,
    Bool.true_and]

/-! ## The obligations -/

/-- Settles O34: with no candidate captured the smallest key that is down decides, and with one captured it is asked
whether that key is down. -/
theorem keyWaitFollowsTheTransitionTable : Obligations.KeyWaitFollowsTheTransitionTable := by
  intro x s
  refine ⟨toNat_formatXNN 0xF x 0x0A, fun hw hp => ?noKey, fun k hw hk hmin => ?capture, fun k hw hk => ?held,
    fun k hw hk => ?released⟩
  case noKey =>
    have he := execLdVxK_of_no_candidate x hw
    rw [smallestKey_eq_none.mpr hp] at he
    exact completes_of_setWait_rewind (i := .ldVxK x) he
  case capture =>
    have he := execLdVxK_of_no_candidate x hw
    rw [smallestKey_eq_some.mpr ⟨hk, hmin⟩] at he
    exact completes_of_setWait_rewind (i := .ldVxK x) he
  case held =>
    have he := execLdVxK_of_candidate x hw
    rw [keyDown, if_pos hk] at he
    exact ⟨_, he, rfl, frame_setPC s _⟩
  case released =>
    have he := execLdVxK_of_candidate x hw
    rw [keyDown, if_neg (Bool.eq_false_iff.mp hk)] at he
    refine ⟨_, he, rfl, ?_, frame_setWait_setReg s _ x _⟩
    rw [State.reg_setReg, if_pos rfl]
    exact BitVec.toNat_setWidth_of_le (by decide)

/-- Settles O33: both instructions answer `skipIf`, of the key's bit and of its negation. -/
theorem keySkipsAskTheLowNibble : Obligations.KeySkipsAskTheLowNibble := by
  intro x s
  rw [← keyDown_lowNibble]
  refine ⟨⟨toNat_formatXNN 0xE x 0x9E, ?skp⟩, ⟨toNat_formatXNN 0xE x 0xA1, ?sknp⟩⟩
  case skp => exact completes_of_skipIf rfl Iff.rfl Iff.rfl
  case sknp => exact completes_of_skipIf rfl (Bool.not_eq_true' _).to_iff (Bool.not_eq_false' _).to_iff

/-- Settles O40: each event writes the keys down and nothing else, and only the bit of its own key. -/
theorem keyEventsChangeOneKey : Obligations.KeyEventsChangeOneKey := by
  intro s k
  constructor
  · exact ⟨keyPress k s, rfl, fun j => getLsbD_keyPress j k s, frame_setPressed s _⟩
  · exact ⟨keyRelease k s, rfl, fun j => getLsbD_keyRelease j k s, frame_setPressed s _⟩

end Sys2Proof.Machine
end

section
/-! The display: the clear, the sprite draw pixel by pixel, and the render (45_display.md R109 to R114). -/

namespace Sys2Proof.Machine

/-! ## The sprite in memory -/

/-- A set bit of a sprite row, as a number (R109). -/
theorem spriteBit_eq_true_iff (row : Byte) (c : Nat) : spriteBit row c = true ↔ row.toNat / 2 ^ (7 - c) % 2 = 1 := by
  rw [spriteBit, BitVec.getLsbD, Nat.testBit_eq_decide_div_mod_eq, decide_eq_true_iff]

/-- The row bytes that DXYN reads: N of them from I on (R112). -/
def State.spriteRows (s : State) (n : Nat) : List Byte := (List.range n).map fun k => s.M.read (s.I.toNat + k)

@[simp] theorem State.length_spriteRows (s : State) (n : Nat) : (s.spriteRows n).length = n := by
  simp [State.spriteRows]

/-- Row r of the sprite is the byte at I + r. -/
theorem State.getElem?_spriteRows_eq_some_iff (s : State) (n r : Nat) (row : Byte) :
    (s.spriteRows n)[r]? = some row ↔ r < n ∧ s.M.read (s.I.toNat + r) = row := by
  by_cases hr : r < n <;> simp [State.spriteRows, hr]

/-- Drawing the rows at I toggles exactly the pixels that the sprite hits. -/
theorem draw_spriteRows_toggled (s : State) (x y : Byte) {n : Nat} (hn : n ≤ 32) :
    Toggled (SpriteHits s x y n) ⟨s.lit, s.phos, false⟩ (draw x y (s.spriteRows n) s) := by
  refine (draw_toggled x y (s.spriteRows n) (by simpa using hn) s).congr fun px py => ?_
  simp only [SpriteHits, State.getElem?_spriteRows_eq_some_iff, spriteBit_eq_true_iff]
  constructor
  · rintro ⟨r, _, ⟨hr, rfl⟩, hits⟩
    exact ⟨r, hr, hits⟩
  · rintro ⟨r, hr, hits⟩
    exact ⟨r, _, ⟨hr, rfl⟩, hits⟩

/-! ## What a finished blit leaves -/

/-- VF is the collision flag, written last (R112). -/
theorem State.reg_vf_afterBlit (s : State) (d : Blit) : (s.afterBlit d).reg 0xF = if d.coll then 1 else 0 := by
  simp [State.afterBlit, collisionFlag, flagOf]

theorem frame_afterBlit (s : State) (d : Blit) :
    Frame { regs := (· = 0xF), lit := True, phos := True } s (s.afterBlit d) := by
  obtain ⟨hregs, -⟩ := frame_setReg s 0xF (collisionFlag d.coll)
  exact ⟨hregs, by simp [State.afterBlit]⟩

/-! ## The obligations -/

/-- Settles O35: the clear writes the logical pixels and nothing else. -/
theorem clearTurnsPixelsOffAndKeepsPhosphor : Obligations.ClearTurnsPixelsOffAndKeepsPhosphor :=
  ⟨rfl, fun s => ⟨s.setLit (gridOf fun _ _ => false), rfl, gridCell_gridOf _, frame_setLit s _⟩⟩

/-- Settles O36: the blit toggles exactly the pixels that the sprite hits, and the collision it accumulates, which goes
to VF, is that one of them was on. -/
theorem drawTogglesExactlyTheSpritePixels : Obligations.DrawTogglesExactlyTheSpritePixels := by
  intro x y n s
  refine ⟨toNat_formatXYN 0xD x y n, ?_⟩
  rcases execDrw_cases x y n s with ⟨hin, he⟩ | ⟨hout, he⟩
  case inl =>
    refine ⟨fun _ => ?_, fun h1 h2 => by omega⟩
    obtain ⟨hhit, hmiss, hcoll⟩ := draw_spriteRows_toggled s (s.reg x) (s.reg y) (n := n.toNat) (by omega)
    simp only [Bool.false_eq_true, false_or] at hcoll
    refine ⟨_, he, fun px py h => ⟨(hhit px py h).1, fun hoff => ?turnsOn, fun hon => ?turnsOff⟩, hmiss,
      fun hex => ?collides, fun hall => ?noCollision, frame_afterBlit s _⟩
    case turnsOn => exact (hhit px py h).2.trans (if_neg (by simp [hoff]))
    case turnsOff => exact (hhit px py h).2.trans (if_pos hon)
    case collides => exact (s.reg_vf_afterBlit _).trans (if_pos (hcoll.2 hex))
    case noCollision =>
      refine (s.reg_vf_afterBlit _).trans (if_neg fun hc => ?_)
      obtain ⟨px, py, h, hon⟩ := hcoll.1 hc
      simp [hall px py h] at hon
  case inr => exact ⟨fun h => by omega, fun _ _ => halts_of_takeFault he⟩

/-- DECAY_STEP is an integer 1 to 255 (00_scope.md R6). -/
theorem decayStep_mem_range : 1 ≤ decayStep ∧ decayStep ≤ 255 :=
  ⟨Nat.le_add_left 1 _, Config.decayStepLessOne.isLt⟩

theorem frame_renderStep (s : State) : Frame { phos := True, rbuf := True } s (renderStep s) := by
  simp [Frame, renderStep]

/-- Settles O41: the new phosphor is `decayed`, and the render buffer is mapped from it. -/
theorem renderStepDecaysThenMaps : Obligations.RenderStepDecaysThenMaps := by
  intro s
  refine ⟨decayStep_mem_range.1, decayStep_mem_range.2, renderStep s, renderBuffer (decayed s), rfl, rfl,
    fun px py => ⟨fun hoff => ?off, fun hon => ?on⟩, fun px py ch => ?buffer, frame_renderStep s⟩
  case off => rw [renderStep_phos, gridCell_decayed, hoff, toNat_decayPixel_off]
  case on => rw [renderStep_phos, gridCell_decayed, hon, decayPixel, if_pos rfl]
  case buffer =>
    rw [renderStep_phos, ← getElem_renderBuffer, Vector.getElem?_toList]
    exact Vector.getElem?_eq_getElem _

end Sys2Proof.Machine
end

section
/-! Phosphor and render buffer are read by no instruction (45_display.md R116): each operation of the state answers
alike whatever the two are, and so does each instruction built from them. -/

namespace Sys2Proof.Machine

/-- `s` with other phosphor values and another render buffer. -/
def State.withGlow (s : State) (g : Grid Byte) (b : Option (Vector Byte 8192)) : State :=
  { s with phos := g, rbuf := b }

/-- Two answers that differ at most in phosphor and render buffer, or are one and the same halted state. -/
inductive AlikeButGlow (b : Option (Vector Byte 8192)) :
    Host.Outcome State Fault Refusal → Host.Outcome State Fault Refusal → Prop
  | next (t : State) (g : Grid Byte) : AlikeButGlow b (.next t) (.next (t.withGlow g b))
  | halted {t : State} (h : ¬t.isRunning) : AlikeButGlow b (.next t) (.next t)

theorem AlikeButGlow.of_eq {b : Option (Vector Byte 8192)} {t u : State} {g : Grid Byte} (h : u = t.withGlow g b) :
    AlikeButGlow b (.next t) (.next u) := h ▸ .next t g

/-- Alike answers are next states with the same status, and, while the core runs, with the same everything else. -/
theorem AlikeButGlow.exists_next {b : Option (Vector Byte 8192)} {r r' : Host.Outcome State Fault Refusal}
    (h : AlikeButGlow b r r') : ∃ t u, r = .next t ∧ r' = .next u ∧ u.status = t.status ∧
      (t.isRunning → u = { t with phos := u.phos, rbuf := b }) := by
  cases h with
  | next t g => exact ⟨t, t.withGlow g b, rfl, rfl, rfl, fun _ => rfl⟩
  | halted hh => exact ⟨_, _, rfl, rfl, rfl, fun hr => absurd hr hh⟩

section
variable (s : State) (g : Grid Byte) (b : Option (Vector Byte 8192))

/-! ## The operations of the state -/

@[simp] theorem State.withGlow_PC : (s.withGlow g b).PC = s.PC := rfl
@[simp] theorem State.withGlow_stack : (s.withGlow g b).stack = s.stack := rfl
@[simp] theorem State.withGlow_pressed : (s.withGlow g b).pressed = s.pressed := rfl
@[simp] theorem State.withGlow_wait : (s.withGlow g b).wait = s.wait := rfl
@[simp] theorem effectiveAddr_withGlow (k : Nat) : effectiveAddr (s.withGlow g b) k = effectiveAddr s k := rfl
@[simp] theorem keyDown_withGlow (k : Key) : keyDown k (s.withGlow g b) = keyDown k s := rfl
@[simp] theorem State.withGlow_rndIn : (s.withGlow g b).rndIn = s.rndIn := rfl
@[simp] theorem State.setWait_withGlow (w : WaitState) :
    (s.withGlow g b).setWait w = (s.setWait w).withGlow g b := rfl

theorem skipIf_withGlow (c : Bool) : skipIf c (s.withGlow g b) = (skipIf c s).withGlow g b := by
  cases c <;> rfl

theorem State.setRegsFrom_withGlow (k : Nat) (bs : List Byte) :
    State.setRegsFrom k bs (s.withGlow g b) = (State.setRegsFrom k bs s).withGlow g b := by
  induction bs generalizing k s with
  | nil => rfl
  | cons v bs ih => exact ih (s.setReg (BitVec.ofNat 4 k) v) (k + 1)

theorem writeIndex_withGlow (v : Nat) :
    writeIndex v (s.withGlow g b) = (writeIndex v s).map (·.withGlow g b) := by
  unfold writeIndex
  rw [apply_ite (Except.map _)]
  rfl

theorem push_withGlow (v : Word) : push v (s.withGlow g b) = (push v s).map (·.withGlow g b) := by
  unfold push
  rw [apply_ite (Except.map _)]
  rfl

theorem pop_withGlow : pop (s.withGlow g b) = (pop s).map fun r => (r.1, r.2.withGlow g b) := by
  simp only [pop, State.withGlow_stack]
  cases s.stack.getLast? <;> rfl

theorem memWrite_withGlow (a : Nat) (v : Byte) :
    memWrite a v (s.withGlow g b) = (memWrite a v s).map (·.withGlow g b) := by
  unfold memWrite
  rw [apply_ite (Except.map _)]
  rfl

theorem writeBytes_withGlow (a : Nat) (vs : List Byte) :
    writeBytes a vs (s.withGlow g b) = (writeBytes a vs s).map (·.withGlow g b) := by
  induction vs generalizing a s with
  | nil => rfl
  | cons v vs ih =>
    rw [writeBytes, writeBytes, memWrite_withGlow]
    cases memWrite a v s with
    | error e => rfl
    | ok t => exact ih t (a + 1)

theorem readBytes_withGlow (a n : Nat) : readBytes a n (s.withGlow g b) = readBytes a n s := by
  induction n generalizing a with
  | zero => rfl
  | succ n ih =>
    rw [readBytes, readBytes, ih]
    rfl

theorem pollCapture_withGlow : pollCapture (s.withGlow g b) = (pollCapture s).withGlow g b := by
  simp only [pollCapture, State.withGlow_pressed]
  cases smallestKey s.pressed <;> rfl

theorem poll_withGlow : poll (s.withGlow g b) = ((poll s).1.withGlow g b, (poll s).2) := by
  cases hw : s.wait with
  | idle => simp [poll, hw, pollCapture_withGlow]
  | awaitingPress => simp [poll, hw, pollCapture_withGlow]
  | awaitingRelease k =>
    cases hk : keyDown k s with
    | true => simp [poll, hw, hk]
    | false => simp [poll, hw, hk]

theorem randomByte_withGlow : randomByte (s.withGlow g b) = ((randomByte s).1, (randomByte s).2.withGlow g b) := by
  simp only [randomByte, State.withGlow_rndIn]
  cases s.rndIn <;> rfl

/-- The pixels and the flag that a finished draw leaves are those it leaves over other phosphor values. -/
theorem afterBlit_draw_withGlow (x y : Byte) (rows : List Byte) :
    (s.withGlow g b).afterBlit (draw x y rows (s.withGlow g b)) =
      (s.afterBlit (draw x y rows s)).withGlow (draw x y rows (s.withGlow g b)).phos b := by
  have hstart : Blit.SamePixels ⟨s.lit, g, false⟩ ⟨s.lit, s.phos, false⟩ := ⟨rfl, rfl⟩
  obtain ⟨hlit, hcoll⟩ : (draw x y rows (s.withGlow g b)).SamePixels (draw x y rows s) :=
    drawRows_samePixels x y rows 0 hstart
  simp only [State.afterBlit, hlit, hcoll]
  rfl

/-! ## The answers of an instruction -/

/-- A fault's record and what it leaves do not depend on phosphor or render buffer (R118, R119). -/
theorem AlikeButGlow.of_raiseIn (i : Instr) (e : Raised) :
    AlikeButGlow b (raiseIn i e s) (raiseIn i e (s.withGlow g b)) := by
  have hfault : takeFault e (s.PC - 2) (some (encode i)) (s.withGlow g b) =
      takeFault e (s.PC - 2) (some (encode i)) s :=
    takeFault_congr e _ _ rfl rfl
  have hnext : raiseIn i e (s.withGlow g b) = raiseIn i e s := congrArg Host.Outcome.next hfault
  rw [hnext]
  exact .halted (by simp [State.isRunning])

/-- Primitives that end alike make an instruction that answers alike. -/
theorem AlikeButGlow.of_finish (i : Instr) {r r' : Except Raised State} (h : r' = r.map (·.withGlow g b)) :
    AlikeButGlow b (finish i s r) (finish i (s.withGlow g b) r') := by
  subst h
  cases r with
  | ok t => exact .next t g
  | error e => exact .of_raiseIn s g b i e

/-- DXYN writes phosphor, and reads it nowhere. -/
theorem execDrw_alikeButGlow (x y : Reg) (n : BitVec 4) :
    AlikeButGlow b (execDrw x y n s) (execDrw x y n (s.withGlow g b)) := by
  unfold execDrw
  rw [effectiveAddr_withGlow, readBytes_withGlow]
  cases readBytes (effectiveAddr s 0) n.toNat s with
  | error e => exact .of_raiseIn s g b _ e
  | ok rows => exact .of_eq (afterBlit_draw_withGlow s g b (s.reg x) (s.reg y) rows)

/-- FX0A polls alike. -/
theorem execLdVxK_alikeButGlow (x : Reg) : AlikeButGlow b (execLdVxK x s) (execLdVxK x (s.withGlow g b)) := by
  unfold execLdVxK
  rw [poll_withGlow]
  rcases poll s with ⟨t, _ | k⟩
  · exact .next (t.setPC (t.PC - 2)) g
  · exact .next (t.setReg x (k.setWidth 8)) g

/-- R116, instruction by instruction. -/
theorem exec_alikeButGlow (i : Instr) : AlikeButGlow b (exec i s) (exec i (s.withGlow g b)) := by
  cases i with
  | sys nnn => exact .of_raiseIn s g b _ _
  | ret =>
    refine .of_finish s g b .ret ?_
    rw [pop_withGlow]
    cases pop s <;> rfl
  | call nnn =>
    refine .of_finish s g b (.call nnn) ?_
    rw [State.withGlow_PC, push_withGlow]
    cases push s.PC s <;> rfl
  | addI x => exact .of_finish s g b (.addI x) (writeIndex_withGlow s g b _)
  | ldB x => exact .of_finish s g b (.ldB x) (writeBytes_withGlow s g b _ _)
  | stRegs x => exact .of_finish s g b (.stRegs x) (writeBytes_withGlow s g b _ _)
  | ldRegs x =>
    refine .of_finish s g b (.ldRegs x) ?_
    rw [effectiveAddr_withGlow, readBytes_withGlow]
    cases readBytes (effectiveAddr s 0) (rangeCount x) s with
    | error e => rfl
    | ok bs => exact congrArg Except.ok (State.setRegsFrom_withGlow s g b 0 bs)
  | drw x y n => exact execDrw_alikeButGlow s g b x y n
  | ldVxK x => exact execLdVxK_alikeButGlow s g b x
  | rnd x nn =>
    simp only [exec, execRnd, randomByte_withGlow]
    exact .next ((randomByte s).2.setReg x ((randomByte s).1 &&& nn)) g
  | seImm x nn => exact .of_eq (skipIf_withGlow s g b _)
  | sneImm x nn => exact .of_eq (skipIf_withGlow s g b _)
  | seReg x y => exact .of_eq (skipIf_withGlow s g b _)
  | sneReg x y => exact .of_eq (skipIf_withGlow s g b _)
  | skp x => exact .of_eq (skipIf_withGlow s g b _)
  | sknp x => exact .of_eq (skipIf_withGlow s g b _)
  | cls => exact .next (s.setLit _) g
  | jp nnn => exact .next (s.setPC _) g
  | jpV0 nnn => exact .next (s.setPC _) g
  | ldI nnn => exact .next (s.setI _) g
  | ldF x => exact .next (s.setI _) g
  | ldDtVx x => exact .next (s.setDT _) g
  | ldStVx x => exact .next (s.setST _) g
  | ldImm x nn => exact .next (s.setReg x _) g
  | addImm x nn => exact .next (s.setReg x _) g
  | ldReg x y => exact .next (s.setReg x _) g
  | orReg x y => exact .next (s.setReg x _) g
  | andReg x y => exact .next (s.setReg x _) g
  | xorReg x y => exact .next (s.setReg x _) g
  | ldVxDt x => exact .next (s.setReg x _) g
  | addReg x y => exact .next (s.setResultThenFlag x _ _) g
  | subReg x y => exact .next (s.setResultThenFlag x _ _) g
  | shr x y => exact .next (s.setResultThenFlag x _ _) g
  | subnReg x y => exact .next (s.setResultThenFlag x _ _) g
  | shl x y => exact .next (s.setResultThenFlag x _ _) g

end

/-! ## The obligation -/

/-- Settles O38: each instruction answers alike whatever phosphor and render buffer are, with the same status in both
answers. -/
theorem phosphorNeverAffectsAnInstruction : Obligations.PhosphorNeverAffectsAnInstruction := by
  intro i s g b
  obtain ⟨t, u, ht, hu, hstatus, hrest⟩ := (exec_alikeButGlow s g b i).exists_next
  exact ⟨t, u, ht, hu, hstatus, fun _ => hrest⟩

end Sys2Proof.Machine
end

section
/-! The core between runs: what a halted core still does, how a reset ends that, and the timer step
(60_exceptions.md sections 1, 3 and 5). -/

namespace Sys2Proof.Machine

/-! ## The halted core -/

/-- A `cpu_step` on a halted core changes nothing (R133). -/
theorem cpuStep_of_halted {s : State} {r : FaultRecord} (hs : s.status = .halted r) (rnd : Option Byte) :
    cpuStep rnd s = .next s := by
  simp only [cpuStep, hs]

/-- Every host step but a reset is defined on a halted core and leaves its status (R30, R133). -/
theorem hostStep_keeps_halted {s : State} {r : FaultRecord} (hs : s.status = .halted r) {h : HostStep}
    (hreset : ∀ rom, h ≠ .reset rom) : ∃ t, hostStep h s = .next t ∧ t.status = .halted r := by
  cases h with
  | cpuStep rnd => exact ⟨s, cpuStep_of_halted hs (some rnd), hs⟩
  | timerStep => exact ⟨timerStep s, rfl, (timerStep_status s).trans hs⟩
  | renderStep => exact ⟨renderStep s, rfl, (renderStep_status s).trans hs⟩
  | keyPress k => exact ⟨keyPress k s, rfl, (keyPress_status k s).trans hs⟩
  | keyRelease k => exact ⟨keyRelease k s, rfl, (keyRelease_status k s).trans hs⟩
  | reset rom => exact absurd rfl (hreset rom)

/-- A reset with a ROM that fits answers a running core, from any state (R122, R134). -/
theorem resetWith_isRunning {rom : List Byte} (hl : rom.length ≤ 3584) (s : State) :
    ∃ t, resetWith rom s = .next t ∧ t.isRunning := by
  rcases resetWith_cases rom s with ⟨_, he⟩ | ⟨hlong, _⟩
  · exact ⟨_, he, rfl⟩
  · omega

/-- Settles O10: of the host's steps only `cpu_step` asks the status and only a reset writes it. -/
theorem haltedCoreStaysHaltedUntilReset : Obligations.HaltedCoreStaysHaltedUntilReset :=
  fun s _ hs => ⟨cpuStep_of_halted hs, fun _ hreset => hostStep_keeps_halted hs hreset,
    fun _ hl => resetWith_isRunning hl s⟩

/-! ## The timer step -/

theorem frame_timerStep (s : State) : Frame { DT := True, ST := True } s (timerStep s) := by
  simp [Frame, timerStep]

/-- Settles O39: each timer is its own count down, and nothing else is written. -/
theorem timerStepCountsBothTimersDown : Obligations.TimerStepCountsBothTimersDown :=
  fun s => ⟨timerStep s, rfl, toNat_countDown s.DT, toNat_countDown s.ST, frame_timerStep s⟩

end Sys2Proof.Machine
end

section
/-! Decode and encode as each other's inverses, and the rows of the opcode table (30_encoding.md sections 1 and 2). -/

namespace Sys2Proof

/-- Settles O1: the thirteen words are closed, so decoding them is a computation. -/
theorem sampleWordsDecodeAsTheTableSays : Obligations.SampleWordsDecodeAsTheTableSays := by
  unfold Obligations.SampleWordsDecodeAsTheTableSays
  decide

/-! ## Decode after encode -/

/-- Decoding the word of a well-formed instruction gives it back: the fields of each format are read back as written. -/
theorem decode_encode {i : Instr} (hwf : i.wellFormed = true) : decode (encode i) = .ok i := by
  cases i with
  | sys nnn =>
    have hlegal : nnn ≠ 0x0E0 ∧ nnn ≠ 0x0EE := by simpa [Instr.wellFormed, Instr.sysOperandLegal] using hwf
    exact decode_encode_sys hlegal.1 hlegal.2
  | cls | ret => decide
  | jp | call | ldI | jpV0 => simp [decode, encode]
  | seImm | sneImm | ldImm | addImm | rnd => simp [decode, encode]
  | seReg | sneReg | drw => simp [decode, encode]
  | ldReg | orReg | andReg | xorReg | addReg | subReg | shr | subnReg | shl => simp [decode, encode, decodeClass8]
  | skp | sknp => simp [decode, encode, decodeClassE]
  | ldVxDt | ldVxK | ldDtVx | ldStVx | addI | ldF | ldB | stRegs | ldRegs => simp [decode, encode, decodeClassF]

/-- Decoding two bytes and more is decoding the word of the two. -/
theorem decodeBytes_encodeBytes_append (i : Instr) (rest : List Byte) :
    decodeBytes (encodeBytes i ++ rest) = (decode (encode i)).map (·, rest) := by
  simp [encodeBytes, decodeBytes]

/-- Settles O2: a word's fields are read back as written, and a word is read back from its two bytes. -/
theorem decodeOfEncodeIsTheInstruction : Obligations.DecodeOfEncodeIsTheInstruction := by
  intro i hwf
  refine ⟨decode_encode hwf, fun rest => ?_⟩
  rw [decodeBytes_encodeBytes_append, decode_encode hwf]
  rfl

/-! ## Encode after decode -/

/-- What the decoder's answer `r` to the word `w` gives, if it gives an instruction, is well formed and encodes to `w`. -/
def ReadFrom (w : Word) (r : Except DecodeError Instr) : Prop :=
  ∀ i, r = .ok i → i.wellFormed = true ∧ encode i = w

section
variable {w : Word} {r r' : Except DecodeError Instr} {i : Instr} {p : Prop}

theorem ReadFrom.ok (hwf : i.wellFormed = true) (he : encode i = w) : ReadFrom w (.ok i) := by
  rintro _ ⟨⟩
  exact ⟨hwf, he⟩

theorem ReadFrom.error (e : DecodeError) : ReadFrom w (.error e) := fun _ h => nomatch h

theorem ReadFrom.ite [Decidable p] (h : p → ReadFrom w r) (h' : ¬p → ReadFrom w r') :
    ReadFrom w (if p then r else r') := by
  by_cases hp : p
  · rw [if_pos hp]
    exact h hp
  · rw [if_neg hp]
    exact h' hp

/-- One operation in front of `r`, for the words with `p`. -/
theorem ReadFrom.ite_ok [Decidable p] (hwf : i.wellFormed = true) (he : p → encode i = w) (h : ReadFrom w r) :
    ReadFrom w (if p then .ok i else r) :=
  .ite (fun hp => .ok hwf (he hp)) fun _ => h

/-! A word whose fixed fields are known is the word of its other fields. -/

theorem formatNNN_of_class {c : BitVec 4} (hc : classOf w = c) : formatNNN c (nnnOf w) = w :=
  hc ▸ formatNNN_fields w

theorem formatXNN_of_class {c : BitVec 4} (hc : classOf w = c) : formatXNN c (xOf w) (nnOf w) = w :=
  hc ▸ formatXNN_fields w

theorem formatXNN_of_class_nn {c : BitVec 4} {nn : Byte} (hc : classOf w = c) (hn : nnOf w = nn) :
    formatXNN c (xOf w) nn = w :=
  hc ▸ hn ▸ formatXNN_fields w

theorem formatXYN_of_class {c : BitVec 4} (hc : classOf w = c) : formatXYN c (xOf w) (yOf w) (nOf w) = w :=
  hc ▸ formatXYN_fields w

theorem formatXYN_of_class_n {c n : BitVec 4} (hc : classOf w = c) (hn : nOf w = n) :
    formatXYN c (xOf w) (yOf w) n = w :=
  hc ▸ hn ▸ formatXYN_fields w

/-- Class 0: what is left after CLS and RET is a legal SYS (R59). -/
theorem decodeClass0_readFrom (hc : classOf w = 0x0) : ReadFrom w (.ok (decodeClass0 w)) := by
  have hw := formatNNN_of_class hc
  unfold decodeClass0
  split
  · next h => exact .ok rfl h.symm
  · next hcls =>
    split
    · next h => exact .ok rfl h.symm
    · next hret =>
      refine .ok ?_ hw
      have h0E0 : nnnOf w ≠ 0x0E0#12 := fun h => hcls (by rw [← hw, h]; rfl)
      have h0EE : nnnOf w ≠ 0x0EE#12 := fun h => hret (by rw [← hw, h]; rfl)
      simp [Instr.wellFormed, Instr.sysOperandLegal, h0E0, h0EE]

theorem decodeClass8_readFrom (hc : classOf w = 0x8) : ReadFrom w (decodeClass8 w) :=
  .ite_ok rfl (formatXYN_of_class_n hc) <| .ite_ok rfl (formatXYN_of_class_n hc) <|
  .ite_ok rfl (formatXYN_of_class_n hc) <| .ite_ok rfl (formatXYN_of_class_n hc) <|
  .ite_ok rfl (formatXYN_of_class_n hc) <| .ite_ok rfl (formatXYN_of_class_n hc) <|
  .ite_ok rfl (formatXYN_of_class_n hc) <| .ite_ok rfl (formatXYN_of_class_n hc) <|
  .ite_ok rfl (formatXYN_of_class_n hc) <| .error _

theorem decodeClassE_readFrom (hc : classOf w = 0xE) : ReadFrom w (decodeClassE w) :=
  .ite_ok rfl (formatXNN_of_class_nn hc) <| .ite_ok rfl (formatXNN_of_class_nn hc) <| .error _

theorem decodeClassF_readFrom (hc : classOf w = 0xF) : ReadFrom w (decodeClassF w) :=
  .ite_ok rfl (formatXNN_of_class_nn hc) <| .ite_ok rfl (formatXNN_of_class_nn hc) <|
  .ite_ok rfl (formatXNN_of_class_nn hc) <| .ite_ok rfl (formatXNN_of_class_nn hc) <|
  .ite_ok rfl (formatXNN_of_class_nn hc) <| .ite_ok rfl (formatXNN_of_class_nn hc) <|
  .ite_ok rfl (formatXNN_of_class_nn hc) <| .ite_ok rfl (formatXNN_of_class_nn hc) <|
  .ite_ok rfl (formatXNN_of_class_nn hc) <| .error _

/-- The class that is left when the other fifteen are ruled out. -/
theorem eq_F_of_not_mem : ∀ c : BitVec 4,
    c ∉ [0x0, 0x1, 0x2, 0x3, 0x4, 0x5, 0x6, 0x7, 0x8, 0x9, 0xA, 0xB, 0xC, 0xD, 0xE] → c = 0xF := by decide

theorem decode_readFrom (w : Word) : ReadFrom w (decode w) :=
  .ite decodeClass0_readFrom fun h0 =>
  .ite (fun h => .ok rfl (formatNNN_of_class h)) fun h1 =>
  .ite (fun h => .ok rfl (formatNNN_of_class h)) fun h2 =>
  .ite (fun h => .ok rfl (formatXNN_of_class h)) fun h3 =>
  .ite (fun h => .ok rfl (formatXNN_of_class h)) fun h4 =>
  .ite (fun h => .ite_ok rfl (formatXYN_of_class_n h) (.error _)) fun h5 =>
  .ite (fun h => .ok rfl (formatXNN_of_class h)) fun h6 =>
  .ite (fun h => .ok rfl (formatXNN_of_class h)) fun h7 =>
  .ite decodeClass8_readFrom fun h8 =>
  .ite (fun h => .ite_ok rfl (formatXYN_of_class_n h) (.error _)) fun h9 =>
  .ite (fun h => .ok rfl (formatNNN_of_class h)) fun hA =>
  .ite (fun h => .ok rfl (formatNNN_of_class h)) fun hB =>
  .ite (fun h => .ok rfl (formatXNN_of_class h)) fun hC =>
  .ite (fun h => .ok rfl (formatXYN_of_class h)) fun hD =>
  .ite decodeClassE_readFrom fun hE =>
  decodeClassF_readFrom <| eq_F_of_not_mem _ <| by simp [h0, h1, h2, h3, h4, h5, h6, h7, h8, h9, hA, hB, hC, hD, hE]

end

/-- Settles O3: each answer of the decoder keeps every field of the word, the fixed ones in the constructor. -/
theorem encodeOfDecodeIsTheWord : Obligations.EncodeOfDecodeIsTheWord := decode_readFrom

/-! ## The rows of the opcode table -/

/-- The word of every instruction matches its own row. -/
theorem encode_matches_row (i : Instr) : encode i &&& opcodeMask i = opcodeMatch i := by
  cases i with
  | sys nnn => exact Laws.MatchesTableRow.sys nnn
  | cls => exact Laws.MatchesTableRow.cls
  | ret => exact Laws.MatchesTableRow.ret
  | jp nnn => exact Laws.MatchesTableRow.jp nnn
  | call nnn => exact Laws.MatchesTableRow.call nnn
  | seImm x nn => exact Laws.MatchesTableRow.seImm x nn
  | sneImm x nn => exact Laws.MatchesTableRow.sneImm x nn
  | seReg x y => exact Laws.MatchesTableRow.seReg x y
  | ldImm x nn => exact Laws.MatchesTableRow.ldImm x nn
  | addImm x nn => exact Laws.MatchesTableRow.addImm x nn
  | ldReg x y => exact Laws.MatchesTableRow.ldReg x y
  | orReg x y => exact Laws.MatchesTableRow.orReg x y
  | andReg x y => exact Laws.MatchesTableRow.andReg x y
  | xorReg x y => exact Laws.MatchesTableRow.xorReg x y
  | addReg x y => exact Laws.MatchesTableRow.addReg x y
  | subReg x y => exact Laws.MatchesTableRow.subReg x y
  | shr x y => exact Laws.MatchesTableRow.shr x y
  | subnReg x y => exact Laws.MatchesTableRow.subnReg x y
  | shl x y => exact Laws.MatchesTableRow.shl x y
  | sneReg x y => exact Laws.MatchesTableRow.sneReg x y
  | ldI nnn => exact Laws.MatchesTableRow.ldI nnn
  | jpV0 nnn => exact Laws.MatchesTableRow.jpV0 nnn
  | rnd x nn => exact Laws.MatchesTableRow.rnd x nn
  | drw x y n => exact Laws.MatchesTableRow.drw x y n
  | skp x => exact Laws.MatchesTableRow.skp x
  | sknp x => exact Laws.MatchesTableRow.sknp x
  | ldVxDt x => exact Laws.MatchesTableRow.ldVxDt x
  | ldVxK x => exact Laws.MatchesTableRow.ldVxK x
  | ldDtVx x => exact Laws.MatchesTableRow.ldDtVx x
  | ldStVx x => exact Laws.MatchesTableRow.ldStVx x
  | addI x => exact Laws.MatchesTableRow.addI x
  | ldF x => exact Laws.MatchesTableRow.ldF x
  | ldB x => exact Laws.MatchesTableRow.ldB x
  | stRegs x => exact Laws.MatchesTableRow.stRegs x
  | ldRegs x => exact Laws.MatchesTableRow.ldRegs x

section
variable {w m : Word}

/-! What the three masks say of the fields of a word. -/

theorem classOf_of_mask (h : w &&& 0xF000 = m) : classOf w = m.extractLsb' 12 4 := by
  have hm : formatNNN (classOf w) 0 = m := (and_mask_class w).symm.trans h
  rw [← hm]
  exact (classOf_formatNNN (classOf w) 0).symm

theorem classOf_nOf_of_mask (h : w &&& 0xF00F = m) :
    classOf w = m.extractLsb' 12 4 ∧ nOf w = m.extractLsb' 0 4 := by
  have hm : formatXYN (classOf w) 0 0 (nOf w) = m := (and_mask_class_n w).symm.trans h
  rw [← hm]
  exact ⟨(classOf_formatXYN _ 0 0 _).symm, (nOf_formatXYN _ 0 0 _).symm⟩

theorem classOf_nnOf_of_mask (h : w &&& 0xF0FF = m) :
    classOf w = m.extractLsb' 12 4 ∧ nnOf w = m.extractLsb' 0 8 := by
  have hm : formatXNN (classOf w) 0 (nnOf w) = m := (and_mask_class_nn w).symm.trans h
  rw [← hm]
  exact ⟨(classOf_formatXNN _ 0 _).symm, (nnOf_formatXNN _ 0 _).symm⟩

theorem eq_of_mask_all (h : w &&& 0xFFFF = m) : w = m := BitVec.and_allOnes.symm.trans h

end

/-- A word with the fixed bits of `j`'s row, where row 0NNN leaves out 00E0 and 00EE, decodes to an instruction of that
row. -/
theorem decode_of_matches_row {w : Word} {j : Instr} (h : w &&& opcodeMask j = opcodeMatch j)
    (hsys : opcodeMatch j = 0 → w ≠ 0x00E0 ∧ w ≠ 0x00EE) :
    ∃ i, decode w = .ok i ∧ opcodeMask i = opcodeMask j ∧ opcodeMatch i = opcodeMatch j := by
  cases j with
  | sys =>
    obtain ⟨hcls, hret⟩ : w ≠ 0x00E0#16 ∧ w ≠ 0x00EE#16 := hsys rfl
    have hc := classOf_of_mask h
    simp only [opcodeMatch, BitVec.extractLsb'_zero] at hc
    simp [decode, decodeClass0, opcodeMask, opcodeMatch, hc, hcls, hret]
  | cls =>
    obtain rfl := eq_of_mask_all h
    exact ⟨.cls, by decide, rfl, rfl⟩
  | ret =>
    obtain rfl := eq_of_mask_all h
    exact ⟨.ret, by decide, rfl, rfl⟩
  | jp | call | seImm | sneImm | ldImm | addImm | ldI | jpV0 | rnd | drw =>
    have hc := classOf_of_mask h
    simp only [opcodeMatch, BitVec.reduceExtractLsb'] at hc
    simp [decode, opcodeMask, opcodeMatch, hc]
  | seReg | sneReg =>
    obtain ⟨hc, hn⟩ := classOf_nOf_of_mask h
    simp only [opcodeMatch, BitVec.reduceExtractLsb'] at hc hn
    simp [decode, opcodeMask, opcodeMatch, hc, hn]
  | ldReg | orReg | andReg | xorReg | addReg | subReg | shr | subnReg | shl =>
    obtain ⟨hc, hn⟩ := classOf_nOf_of_mask h
    simp only [opcodeMatch, BitVec.reduceExtractLsb'] at hc hn
    simp [decode, decodeClass8, opcodeMask, opcodeMatch, hc, hn]
  | skp | sknp =>
    obtain ⟨hc, hnn⟩ := classOf_nnOf_of_mask h
    simp only [opcodeMatch, BitVec.reduceExtractLsb'] at hc hnn
    simp [decode, decodeClassE, opcodeMask, opcodeMatch, hc, hnn]
  | ldVxDt | ldVxK | ldDtVx | ldStVx | addI | ldF | ldB | stRegs | ldRegs =>
    obtain ⟨hc, hnn⟩ := classOf_nnOf_of_mask h
    simp only [opcodeMatch, BitVec.reduceExtractLsb'] at hc hnn
    simp [decode, decodeClassF, opcodeMask, opcodeMatch, hc, hnn]

/-- Settles O5: the word is the instruction's own, which matches its row; and a row that the word matches is the row of
what it decodes to. -/
theorem eachWordMatchesOneTableRow : Obligations.EachWordMatchesOneTableRow := by
  intro w i hi
  obtain ⟨-, rfl⟩ := encodeOfDecodeIsTheWord w i hi
  refine ⟨encode_matches_row i, fun j hj hsys => ?_⟩
  obtain ⟨i', hi', hmask, hmatch⟩ := decode_of_matches_row hj hsys
  obtain rfl : i = i' := by simpa [hi] using hi'
  exact ⟨hmask.symm, hmatch.symm⟩

end Sys2Proof
end

section
/-! What the instructions write, said once: each part of the state is written by the instructions that the spec names
(10_state.md, 20_memory.md section 1). -/

namespace Sys2Proof.Machine

/-- The instructions that may write VF (R16): as the flag of one of six instructions, or as their X. -/
def MayWriteVf (i : Instr) : Prop :=
  (∃ x y n, i = .addReg x y ∨ i = .subReg x y ∨ i = .shr x y ∨ i = .subnReg x y ∨ i = .shl x y ∨ i = .drw x y n) ∨
  (∃ y nn, i = .ldImm 0xF nn ∨ i = .addImm 0xF nn ∨ i = .ldReg 0xF y ∨ i = .orReg 0xF y ∨ i = .andReg 0xF y ∨
    i = .xorReg 0xF y ∨ i = .rnd 0xF nn ∨ i = .ldVxDt 0xF ∨ i = .ldVxK 0xF ∨ i = .ldRegs 0xF)

/-- `Writes s i t`: which parts of `s` instruction `i` wrote, without a fault, to leave `t`, and what it wrote to those
of which an invariant speaks. -/
inductive Writes (s : State) : Instr → State → Prop
  | regs {i : Instr} (V : Vector Byte 16) (n : Nat) (hvf : V.get 0xF = s.V.get 0xF ∨ MayWriteVf i) :
    Writes s i { s with V := V, freeCount := n }
  | pc {i : Instr} (a : Word) (ha : a = s.PC + 2 ∨ a.toNat ≤ 0x10FE) : Writes s i (s.setPC a)
  | index {i : Instr} (a : Addr) (hi : ∃ x nnn, i = .ldI nnn ∨ i = .addI x ∨ i = .ldF x) : Writes s i (s.setI a)
  | ret (l : List Word) (v : Word) (hs : s.stack = l ++ [v]) : Writes s .ret ((s.setStack l).setPC v)
  | call (nnn : Addr) (hs : s.stack.length < 12) :
    Writes s (.call nnn) ((s.setStack (s.stack ++ [s.PC])).setPC (targetOf nnn))
  | delay (x : Reg) (v : Byte) : Writes s (.ldDtVx x) (s.setDT v)
  | sound (x : Reg) (v : Byte) : Writes s (.ldStVx x) (s.setST v)
  | clear : Writes s .cls (s.setLit (gridOf fun _ _ => false))
  | sprite (x y : Reg) (n : BitVec 4) :
    Writes s (.drw x y n) (s.afterBlit (draw (s.reg x) (s.reg y) (s.spriteRows n.toNat) s))
  | store {i : Instr} (vs : List Byte) (hvs : s.I.toNat + vs.length ≤ memSize)
    (hi : ∃ x, i = .ldB x ∨ i = .stRegs x) : Writes s i (s.setM (s.M.writeList s.I.toNat vs))
  | waiting (x : Reg) (w : WaitState) : Writes s (.ldVxK x) ((s.setWait w).setPC (s.PC - 2))
  | resolved (x : Reg) (v : Byte) : Writes s (.ldVxK x) ((s.setWait .idle).setReg x v)

section
variable {s t : State} {i : Instr}

/-! ## Every effect is one of these -/

theorem State.reg_vf_setReg_of_ne (s : State) {x : Reg} (hx : x ≠ 0xF) (v : Byte) :
    (s.setReg x v).reg 0xF = s.reg 0xF := by
  rw [State.reg_setReg, if_neg fun h => hx h.symm]

/-- A write to VX writes VF only where X is F. -/
theorem Writes.of_setReg {x : Reg} {v : Byte} (n : Nat) (hi : x = 0xF → MayWriteVf i) :
    Writes s i { s.setReg x v with freeCount := n } := by
  refine .regs (s.setReg x v).V n ?_
  by_cases hx : x = 0xF
  · exact .inr (hi hx)
  · exact .inl (s.reg_vf_setReg_of_ne hx v)

theorem Writes.of_setResultThenFlag {x : Reg} {v flag : Byte} (hi : MayWriteVf i) :
    Writes s i (s.setResultThenFlag x v flag) :=
  .regs (s.setResultThenFlag x v flag).V s.freeCount (.inr hi)

theorem Writes.of_skipIf (c : Bool) : Writes s i (skipIf c s) := by
  rcases skipIf_cases c s with h | h <;> rw [h]
  · exact .pc _ (.inl rfl)
  · exact .regs s.V s.freeCount (.inl rfl)

/-- FX65 writes VF only where X is F. -/
theorem Writes.of_setRegsFrom {x : Reg} {bs : List Byte} (hl : bs.length = x.toNat + 1) :
    Writes s (.ldRegs x) (State.setRegsFrom 0 bs s) := by
  obtain ⟨V, hV⟩ := State.setRegsFrom_eq s 0 bs
  obtain ⟨hregs, -⟩ := frame_setRegsFrom s x.toNat bs hl x.isLt
  rw [hV] at hregs ⊢
  refine .regs V s.freeCount ((hregs 0xF).symm.imp_right fun hx => ?_)
  have hxF : x = 0xF := BitVec.eq_of_toNat_eq (Nat.le_antisymm (Nat.le_of_lt_succ x.isLt) hx)
  exact .inr (by simp [hxF])

/-- What an instruction that raises no fault does is one of these writes. -/
theorem Writes.of_effect (h : Effect s t i) : Writes s i t := by
  cases i with
  | sys nnn => exact h.elim
  | cls => subst h; exact .clear
  | ret => obtain ⟨l, v, hs, rfl⟩ := h; exact .ret l v hs
  | call nnn => obtain ⟨hs, rfl⟩ := h; exact .call nnn hs
  | jp nnn =>
    subst h
    exact .pc _ (.inr (by rw [toNat_targetOf]; omega))
  | jpV0 nnn =>
    subst h
    exact .pc _ (.inr (by rw [toNat_offsetTarget]; omega))
  | seImm | sneImm | seReg | sneReg | skp | sknp => subst h; exact .of_skipIf _
  | ldImm | addImm | ldReg | orReg | andReg | xorReg | ldVxDt =>
    subst h
    exact .of_setReg _ fun hx => .inr (by simp [hx])
  | addReg | subReg | shr | subnReg | shl =>
    subst h
    exact .of_setResultThenFlag (.inl (by simp))
  | rnd x nn =>
    obtain ⟨u, b, hu, rfl⟩ := h
    have hvf : x = 0xF → MayWriteVf (.rnd x nn) := fun hx => .inr (by simp [hx])
    rcases hu with rfl | rfl
    · exact .of_setReg _ hvf
    · exact .of_setReg (s.freeCount + 1) hvf
  | ldI nnn => subst h; exact .index nnn ⟨0, nnn, .inl rfl⟩
  | addI x => obtain ⟨-, rfl⟩ := h; exact .index _ ⟨x, 0, .inr (.inl rfl)⟩
  | ldF x => subst h; exact .index _ ⟨x, 0, .inr (.inr rfl)⟩
  | ldB x =>
    obtain ⟨hin, rfl⟩ := h
    exact .store _ (Nat.succ_le_succ hin) ⟨x, .inl rfl⟩
  | stRegs x =>
    obtain ⟨hin, rfl⟩ := h
    exact .store _ (by rw [State.length_firstRegs]; exact Nat.succ_le_succ hin) ⟨x, .inr rfl⟩
  | ldRegs x =>
    obtain ⟨-, rfl⟩ := h
    exact .of_setRegsFrom (by simp)
  | drw x y n => obtain ⟨-, rfl⟩ := h; exact .sprite x y n
  | ldDtVx x => subst h; exact .delay x _
  | ldStVx x => subst h; exact .sound x _
  | ldVxK x =>
    rcases h with ⟨w, rfl⟩ | ⟨k, -, rfl⟩
    · exact .waiting x w
    · exact .resolved x _

/-- An instruction that answers a next state took a fault or wrote what `Writes` says. -/
theorem exec_writes (h : exec i s = .next t) :
    (∃ e, t = takeFault e (s.PC - 2) (some (encode i)) s) ∨ Writes s i t :=
  (exec_effect h).imp_right .of_effect

theorem not_isRunning_takeFault (e : Raised) (a : Word) (w : Option Word) (s : State) :
    ¬(takeFault e a w s).isRunning := by simp [State.isRunning]

/-- Where the core still runs, no fault was taken. -/
theorem writes_of_isRunning (h : exec i s = .next t) (ht : t.isRunning) : Writes s i t := by
  rcases exec_writes h with ⟨e, rfl⟩ | hw
  · exact absurd ht (not_isRunning_takeFault e _ _ s)
  · exact hw

/-! ## Part by part -/

theorem Writes.I_cases (h : Writes s i t) : t.I = s.I ∨ ∃ x nnn, i = .ldI nnn ∨ i = .addI x ∨ i = .ldF x := by
  cases h with
  | index a hi => exact .inr hi
  | _ => exact .inl rfl

/-- The stack: a push of PC with room, or a pop (R23, R24). -/
theorem Writes.stack_cases (h : Writes s i t) :
    t.stack = s.stack ∨ (∃ nnn, i = .call nnn ∧ s.stack.length < 12 ∧ t.stack = s.stack ++ [s.PC]) ∨
      (i = .ret ∧ ∃ v, s.stack = t.stack ++ [v]) := by
  cases h with
  | call nnn hs => exact .inr (.inl ⟨nnn, rfl, hs, rfl⟩)
  | ret l v hs => exact .inr (.inr ⟨rfl, v, hs⟩)
  | _ => exact .inl rfl

theorem Writes.DT_cases (h : Writes s i t) : t.DT = s.DT ∨ ∃ x, i = .ldDtVx x := by
  cases h with
  | delay x v => exact .inr ⟨x, rfl⟩
  | _ => exact .inl rfl

theorem Writes.ST_cases (h : Writes s i t) : t.ST = s.ST ∨ ∃ x, i = .ldStVx x := by
  cases h with
  | sound x v => exact .inr ⟨x, rfl⟩
  | _ => exact .inl rfl

/-- The display: cleared, drawn on, or as before (R26, R27). -/
theorem Writes.display_cases (h : Writes s i t) :
    (t.lit = s.lit ∧ t.phos = s.phos) ∨ (i = .cls ∧ (∀ px py, gridCell t.lit px py = false) ∧ t.phos = s.phos) ∨
      (∃ x y n, i = .drw x y n ∧ ∃ H coll, Toggled H ⟨s.lit, s.phos, false⟩ ⟨t.lit, t.phos, coll⟩) := by
  cases h with
  | clear => exact .inr (.inl ⟨rfl, gridCell_gridOf _, rfl⟩)
  | sprite x y n =>
    have hn : n.toNat ≤ 32 := by omega
    exact .inr (.inr ⟨x, y, n, rfl, _, _, draw_spriteRows_toggled s (s.reg x) (s.reg y) hn⟩)
  | _ => exact .inl ⟨rfl, rfl⟩

/-- Memory: bytes written one after the other from I on, all of them inside, or as before (R39). -/
theorem Writes.M_cases (h : Writes s i t) :
    t.M = s.M ∨ ((∃ x, i = .ldB x ∨ i = .stRegs x) ∧
      ∃ vs, s.I.toNat + vs.length ≤ memSize ∧ t.M = s.M.writeList s.I.toNat vs) := by
  cases h with
  | store vs hvs hi => exact .inr ⟨hi, vs, hvs, rfl⟩
  | _ => exact .inl rfl

theorem Writes.wait_cases (h : Writes s i t) : t.wait = s.wait ∨ ∃ x, i = .ldVxK x := by
  cases h with
  | waiting x w => exact .inr ⟨x, rfl⟩
  | resolved x v => exact .inr ⟨x, rfl⟩
  | _ => exact .inl rfl

/-- PC: as before, past one more word, at most at the farthest target of BNNN, back at the instruction, or taken from
the stack (R66 to R71, R107). -/
theorem Writes.PC_cases (h : Writes s i t) :
    t.PC = s.PC ∨ t.PC = s.PC + 2 ∨ t.PC.toNat ≤ 0x10FE ∨ t.PC = s.PC - 2 ∨ t.PC ∈ s.stack := by
  cases h with
  | pc a ha => exact .inr (ha.imp_right .inl)
  | call nnn hs => exact .inr (.inr (.inl (by rw [State.setPC_PC, toNat_targetOf]; omega)))
  | waiting x w => exact .inr (.inr (.inr (.inl rfl)))
  | ret l v hs => exact .inr (.inr (.inr (.inr (by simp [hs]))))
  | _ => exact .inl rfl

/-- What no instruction writes: the keys down, the render buffer, the host's steps still to happen (R29, R33). -/
theorem Writes.keeps (h : Writes s i t) : t.pressed = s.pressed ∧ t.rbuf = s.rbuf ∧ t.inputs = s.inputs := by
  cases h <;> exact ⟨rfl, rfl, rfl⟩

theorem Writes.vf_cases (h : Writes s i t) : t.reg 0xF = s.reg 0xF ∨ MayWriteVf i := by
  cases h with
  | regs V n hvf => exact hvf
  | sprite x y n => exact .inr (.inl (by simp))
  | resolved x v =>
    by_cases hx : x = 0xF
    · exact .inr (.inr (by simp [hx]))
    · exact .inl (State.reg_vf_setReg_of_ne _ hx v)
  | _ => exact .inl rfl

end

/-! ## The obligations on who writes what -/

/-- Settles O51: one case lemma for each part. -/
theorem partsChangeOnlyByTheirInstructions : Obligations.PartsChangeOnlyByTheirInstructions := by
  intro i s t _ he ht
  have hw := writes_of_isRunning he ht
  refine ⟨hw.I_cases.resolve_left, fun hne => ?stack, hw.DT_cases.resolve_left, hw.ST_cases.resolve_left,
    fun hne => ?lit, fun hne => ?phos, fun hne => ?mem, hw.wait_cases.resolve_left, hw.keeps⟩
  case stack =>
    rcases hw.stack_cases.resolve_left hne with ⟨nnn, hi, -⟩ | ⟨hi, -⟩
    · exact ⟨nnn, .inl hi⟩
    · exact ⟨0, .inr hi⟩
  case lit =>
    rcases hw.display_cases with ⟨h, -⟩ | ⟨hi, -⟩ | ⟨x, y, n, hi, -⟩
    · exact absurd h hne
    · exact ⟨0, 0, 0, .inl hi⟩
    · exact ⟨x, y, n, .inr hi⟩
  case phos =>
    rcases hw.display_cases with ⟨-, h⟩ | ⟨-, -, h⟩ | ⟨x, y, n, hi, -⟩
    · exact absurd h hne
    · exact absurd h hne
    · exact ⟨x, y, n, hi⟩
  case mem => exact (hw.M_cases.resolve_left hne).1

/-- Settles O52: `MayWriteVf` is the statement's own list, which every write of VF is in. -/
theorem vfChangesOnlyAsAFlagOrADestination : Obligations.VfChangesOnlyAsAFlagOrADestination :=
  fun _ _ _ _ he ht hne => (writes_of_isRunning he ht).vf_cases.resolve_left hne

/-- R115: k renders in a row take DECAY_STEP k times from a pixel that is off, floored at 0, and nothing from one that
is on. -/
theorem iterate_renderStep (k : Nat) (s : State) (px : Fin 64) (py : Fin 32) :
    gridCell (renderStep^[k] s).lit px py = gridCell s.lit px py ∧
    (gridCell s.lit px py = false →
      (gridCell (renderStep^[k] s).phos px py).toNat = (gridCell s.phos px py).toNat - k * decayStep) ∧
    (gridCell s.lit px py = true → gridCell (renderStep^[k] s).phos px py = gridCell s.phos px py) := by
  induction k with
  | zero => simp
  | succ k ih =>
    obtain ⟨hlit, hoff, hon⟩ := ih
    rw [Function.iterate_succ_apply', renderStep_lit, renderStep_phos, gridCell_decayed, hlit]
    refine ⟨rfl, fun h => ?_, fun h => ?_⟩
    · rw [h, toNat_decayPixel_off, hoff h, Nat.succ_mul, Nat.sub_sub]
    · rw [h, decayPixel, if_pos rfl, hon h]

/-- An instruction that raises no fault leaves a phosphor value or sets it to 255 (R110, R111). -/
theorem Writes.phos_cell_cases {s t : State} {i : Instr} (h : Writes s i t) (px : Fin 64) (py : Fin 32) :
    gridCell t.phos px py = gridCell s.phos px py ∨ gridCell t.phos px py = 255 := by
  rcases h.display_cases with ⟨-, hp⟩ | ⟨-, -, hp⟩ | ⟨_, _, _, -, H, coll, hhit, hmiss, -⟩
  · exact .inl (by rw [hp])
  · exact .inl (by rw [hp])
  · by_cases hH : H px py
    · exact (hhit px py hH).2 ▸ ite_eq_or_eq _ _ _
    · exact .inl (hmiss px py hH).2

/-- Settles O42: the decay by induction on the renders, and the instructions by what they write to the display. -/
theorem phosphorDecaysByTheLaw : Obligations.PhosphorDecaysByTheLaw :=
  ⟨iterate_renderStep, fun _ _ _ _ he ht => (writes_of_isRunning he ht).phos_cell_cases⟩

end Sys2Proof.Machine
end

section
/-! The invariants of every step: the induction's step is made once, and each invariant is its own few facts. -/

namespace Sys2Proof.Machine

/-- What makes a property hold after every step from a state that has it. -/
structure StepInvariant (P : State → Prop) : Prop where
  /-- It holds where a fault was taken. -/
  fault : ∀ e a w s, P (takeFault e a w s)
  /-- It does not look at the timers, the keys down or the host's steps still to happen. -/
  unread : ∀ {s : State} DT ST pressed inputs, P s →
    P { s with DT := DT, ST := ST, pressed := pressed, inputs := inputs }
  /-- A render keeps it. -/
  render : ∀ {s}, P s → P (renderStep s)
  /-- It holds after a reset with a ROM that fits. -/
  reset : ∀ {rom} inputs freeCount, rom.length ≤ 3584 →
    P { State.reset with M := Memory.writeList [] 0x200 rom, inputs := inputs, freeCount := freeCount }
  /-- The instruction at PC of a running core keeps it, where it raises no fault. -/
  exec : ∀ {rnd s t w i}, P s → s.isRunning → fetch16 s.PC.toNat s = .ok w → decode w = .ok i →
    exec i (fetched rnd s) = .next t → Writes (fetched rnd s) i t → P t

theorem StepInvariant.cpuStep {P : State → Prop} (inv : StepInvariant P) {rnd : Option Byte} {s t : State} (hs : P s)
    (h : cpuStep rnd s = .next t) : P t := by
  rcases cpuStep_cases h with ⟨-, rfl⟩ | ⟨-, e, -, rfl⟩ | ⟨-, w, d, -, -, rfl⟩ | ⟨hr, w, i, hw, hi, he⟩
  · exact hs
  · exact inv.fault ..
  · exact inv.fault ..
  · rcases exec_writes he with ⟨e, rfl⟩ | hwr
    · exact inv.fault ..
    · exact inv.exec hs hr hw hi he hwr

theorem StepInvariant.step {P : State → Prop} (inv : StepInvariant P) {s t : State} (hs : P s)
    (h : step s = .next t) : P t := by
  have hinputs : ∀ rest, P (s.setInputs rest) := fun rest => inv.unread s.DT s.ST s.pressed rest hs
  rcases step_cases h with ⟨rnd, u, hu, hc⟩ | ⟨rest, -, rfl⟩ | ⟨rest, -, rfl⟩ | ⟨k, rest, -, rfl⟩ | ⟨k, rest, -, rfl⟩ |
    ⟨rom, rest, -, hl, rfl⟩
  · refine inv.cpuStep ?_ hc
    rcases hu with rfl | ⟨rest, rfl⟩
    · exact hs
    · exact hinputs rest
  · exact inv.unread (s := s) _ _ s.pressed rest hs
  · exact inv.render (hinputs rest)
  · exact inv.unread (s := s) s.DT s.ST _ rest hs
  · exact inv.unread (s := s) s.DT s.ST _ rest hs
  · exact inv.reset rest s.freeCount hl

/-! ## Memory in canonical form and a stack within capacity -/

theorem legal_stepInvariant : StepInvariant State.legal where
  fault e a w s := ⟨takeFault_wf e a w s, takeFault_stack e a w s⟩
  unread _ _ _ _ h := h
  render h := by simpa [State.legal] using h
  reset _ _ hl := ⟨(Memory.writeList_spec _ [] 0x200 rfl (by unfold memSize; omega)).1, Nat.zero_le _⟩
  exec := by
    rintro rnd s t w i ⟨hM, hstack⟩ - - - - hw
    constructor
    · rcases hw.M_cases with h | ⟨-, vs, hvs, h⟩
      · rw [h]
        exact hM
      · rw [h]
        exact (Memory.writeList_spec vs _ _ hM hvs).1
    · rcases hw.stack_cases with h | ⟨nnn, -, hroom, h⟩ | ⟨-, v, h⟩
      · rw [h]
        exact hstack
      · rw [h, List.length_append]
        exact hroom
      · have hlen := congrArg List.length h
        rw [List.length_append] at hlen
        exact Nat.le_trans (Nat.le_add_right _ _) (hlen ▸ hstack)

/-- Settles O45: a store keeps the canonical form, and a push has room. -/
theorem stepKeepsTheStateLegal : Obligations.StepKeepsTheStateLegal := fun _ _ => legal_stepInvariant.step

/-! ## Pixels that are on glow -/

/-- Toggling pixels keeps the glow: one that turns on is set to 255. -/
theorem Toggled.keeps_glow {H : Fin 64 → Fin 32 → Prop} {d d' : Blit} (h : Toggled H d d')
    (hd : ∀ px py, gridCell d.lit px py = true → gridCell d.phos px py = 255) (px : Fin 64) (py : Fin 32)
    (hon : gridCell d'.lit px py = true) : gridCell d'.phos px py = 255 := by
  obtain ⟨hhit, hmiss, -⟩ := h
  by_cases hH : H px py
  · obtain ⟨hl, hp⟩ := hhit px py hH
    have hoff : gridCell d.lit px py = false := by simpa [hl] using hon
    rw [hp, if_neg (by simp [hoff])]
  · obtain ⟨hl, hp⟩ := hmiss px py hH
    rw [hp]
    exact hd px py (hl ▸ hon)

theorem onPixelsGlow_stepInvariant : StepInvariant State.onPixelsGlow where
  fault e a w s hr := absurd hr (not_isRunning_takeFault e a w s)
  unread _ _ _ _ h := h
  render := by
    intro s hs hr px py hon
    rw [renderStep_lit] at hon
    rw [renderStep_phos, gridCell_decayed, hon, decayPixel, if_pos rfl]
    exact hs (by simpa [State.isRunning] using hr) px py hon
  reset _ _ _ _ px py hon := by simp [State.reset] at hon
  exec := by
    intro rnd s t w i hs hr _ _ _ hw _ px py hon
    rcases hw.display_cases with ⟨hl, hp⟩ | ⟨-, hl, -⟩ | ⟨_, _, _, -, H, coll, htog⟩
    · rw [hp]
      exact hs hr px py (hl ▸ hon)
    · simp [hl] at hon
    · exact htog.keeps_glow (hs hr) px py hon

/-- Settles O47: only the clear and the sprite write pixels, and a pixel that a sprite turns on is set to 255. -/
theorem stepKeepsOnPixelsGlowing : Obligations.StepKeepsOnPixelsGlowing := fun _ _ => onPixelsGlow_stepInvariant.step

/-! ## A pending wait is at its instruction -/

/-- An FX0A that leaves the wait pending leaves PC on its own word and memory as it was. -/
theorem execLdVxK_of_wait_ne_idle {x : Reg} {s t : State} (h : execLdVxK x s = .next t) (ht : t.wait ≠ .idle) :
    t.PC = s.PC - 2 ∧ t.M = s.M := by
  rcases execLdVxK_cases x s with ⟨-, -, he⟩ | ⟨k, -, -, he⟩ | ⟨k, -, -, he⟩ | ⟨k, -, -, he⟩ <;>
    obtain rfl := Host.Outcome.next.inj (h.symm.trans he)
  · exact ⟨rfl, rfl⟩
  · exact ⟨rfl, rfl⟩
  · exact ⟨rfl, rfl⟩
  · exact absurd rfl ht

/-- A fetch reads memory and nothing else. -/
theorem fetch16_congr {s t : State} (h : t.M = s.M) (a : Nat) : fetch16 a t = fetch16 a s := by
  unfold fetch16
  rw [h]

theorem waitIsAtItsInstruction_stepInvariant : StepInvariant State.waitIsAtItsInstruction where
  fault e a w s hr := absurd hr (not_isRunning_takeFault e a w s)
  unread _ _ _ _ h := h
  render h := by simpa [State.waitIsAtItsInstruction, State.isRunning, fetch16] using h
  reset _ _ _ _ hne := absurd rfl hne
  exec := by
    intro rnd s t w i hs hr hfetch hdec he hw _ hne
    obtain ⟨x, rfl⟩ : ∃ x, i = .ldVxK x := by
      rcases hw.wait_cases with h | h
      · obtain ⟨w', x, hfetch', hdec'⟩ := hs hr (h ▸ hne)
        obtain rfl : w = w' := by simpa [hfetch] using hfetch'
        exact ⟨x, by simpa [hdec] using hdec'⟩
      · exact h
    obtain ⟨hPC, hM⟩ := execLdVxK_of_wait_ne_idle he hne
    have hPC' : t.PC = s.PC := hPC.trans (BitVec.add_sub_cancel s.PC 2)
    refine ⟨w, x, ?_, hdec⟩
    rw [hPC', ← hfetch]
    exact fetch16_congr hM _

/-- Settles O48: only FX0A writes the wait, and while it is pending FX0A is the only instruction that runs. -/
theorem stepKeepsTheWaitAtItsInstruction : Obligations.StepKeepsTheWaitAtItsInstruction :=
  fun _ _ => waitIsAtItsInstruction_stepInvariant.step

/-! ## PC and the return addresses in range -/

theorem toNat_add_two {a : Word} (h : a.toNat < 0xFFFE) : (a + 2).toNat = a.toNat + 2 :=
  BitVec.toNat_add_of_lt (y := 2) (Nat.add_lt_add_right h 2)

theorem pcInRange_stepInvariant : StepInvariant State.pcInRange where
  fault e a w s hr := absurd hr (not_isRunning_takeFault e a w s)
  unread _ _ _ _ h := h
  render h := by simpa [State.pcInRange, State.isRunning] using h
  reset _ _ _ _ := ⟨show (0x200 : Word).toNat ≤ 0x10FE by decide, by simp [State.reset]⟩
  exec := by
    intro rnd s t w i hs hr hfetch _ _ hw _
    obtain ⟨-, hstack⟩ := hs hr
    have hin : s.PC.toNat + 1 < 0x1000 := by
      rcases fetch16_cases s.PC.toNat s with ⟨h, -⟩ | ⟨-, h⟩
      · exact h
      · simp [hfetch] at h
    have hnext : (fetched rnd s).PC.toNat = s.PC.toNat + 2 := toNat_add_two (by omega)
    refine ⟨?pc, fun v hv => ?stack⟩
    case pc =>
      rcases hw.PC_cases with h | h | h | h | h
      · rw [h]
        omega
      · rw [h, toNat_add_two (by omega)]
        omega
      · exact h
      · have hback : t.PC = s.PC := h.trans (BitVec.add_sub_cancel s.PC 2)
        rw [hback]
        omega
      · have := hstack _ h
        omega
    case stack =>
      rcases hw.stack_cases with h | ⟨_, -, -, h⟩ | ⟨-, u, h⟩
      · exact hstack v (h ▸ hv)
      · rw [h, List.mem_append, List.mem_singleton] at hv
        rcases hv with hv | rfl
        · exact hstack v hv
        · omega
      · have hmem : v ∈ (fetched rnd s).stack := by
          rw [h]
          exact List.mem_append_left _ hv
        exact hstack v hmem

/-- Settles O49: a fetch that succeeds was at 0xFFE or below, and BNNN reaches no farther than 0xFFF + 0xFF. -/
theorem stepKeepsThePcInRange : Obligations.StepKeepsThePcInRange := fun _ _ => pcInRange_stepInvariant.step

end Sys2Proof.Machine
end

section
/-! The instruction cycle: a step is the host's next step, a `cpu_step` runs what the word at PC decodes to, and every
step but one reset answers a next state (00_scope.md section 2, 30_encoding.md sections 3 and 5). -/

namespace Sys2Proof.Machine

/-! ## What a step is -/

theorem step_of_no_inputs {s : State} (h : s.inputs = []) : step s = cpuStep none s := by simp only [step, h]

theorem step_of_inputs {s : State} {h : HostStep} {rest : List HostStep} (hs : s.inputs = h :: rest) :
    step s = hostStep h (s.setInputs rest) := by simp only [step, hs]

/-- Settles O7: `step` by whether the list of host steps is empty. -/
theorem stepTakesTheHostsNextStep : Obligations.StepTakesTheHostsNextStep :=
  fun _ => ⟨step_of_no_inputs, fun _ _ => step_of_inputs, fun _ => rfl⟩

/-! ## A `cpu_step` by the word at PC -/

/-- Two bytes that decode to an instruction and nothing more are a word that decodes to it. -/
theorem decode_wordOfBytes_of_decodeBytes {hi lo : Byte} {i : Instr} (h : decodeBytes [hi, lo] = .ok (i, [])) :
    decode (wordOfBytes hi lo) = .ok i := by
  rw [decodeBytes] at h
  cases hd : decode (wordOfBytes hi lo) with
  | error e => simp [hd, Except.map] at h
  | ok j => simpa [hd, Except.map] using h

/-- Settles O6: the word fetched is that of the two bytes, and `fetched` is the state in which it executes. -/
theorem stepRunsTheDecodedInstruction : Obligations.StepRunsTheDecodedInstruction := by
  intro s i hr hpc hbytes
  have hfetch := fetch16_inside (show s.PC.toNat + 1 < 0x1000 by omega) s
  have hdecode := decode_wordOfBytes_of_decodeBytes hbytes
  refine ⟨fun hin => ?_, fun r rest hin => ?_⟩
  · exact (step_of_no_inputs hin).trans (cpuStep_of_decode hr hfetch hdecode)
  · exact (step_of_inputs hin).trans (cpuStep_of_decode (s := s.setInputs rest) hr hfetch hdecode)

/-- An illegal word is a fault taken where it was fetched (R57, R64). -/
theorem cpuStep_of_decode_error {s : State} {w : Word} {d : DecodeError} (hr : s.isRunning)
    (hw : fetch16 s.PC.toNat s = .ok w) (hd : decode w = .error d) (rnd : Option Byte) :
    cpuStep rnd s = .next (takeFault ⟨.unknownOpcode, some w.toNat⟩ s.PC (some w) (fetched rnd s)) := by
  unfold State.isRunning at hr
  simp only [cpuStep, hr, hw, decodeAndExecute, hd]

/-- Settles O8: the word fetched is `w`, because it is `w` as a number. -/
theorem illegalWordHaltsTheCore : Obligations.IllegalWordHaltsTheCore := by
  intro s w rnd hr hpc hw hd
  have hfetch := fetch16_inside (show s.PC.toNat + 1 < 0x1000 by omega) s
  obtain rfl := BitVec.eq_of_toNat_eq (hw.trans (toNat_wordOfBytes _ _).symm)
  exact ⟨_, cpuStep_of_decode_error hr hfetch hd rnd, takeFault_status _ _ _ _⟩

/-! ## Every step but an oversize reset answers a next state -/

/-- Every instruction answers a next state: R116's comparison of two runs gives one in each. -/
theorem exec_total (i : Instr) (s : State) : ∃ t, exec i s = .next t := by
  obtain ⟨t, -, ht, -⟩ := (exec_alikeButGlow s s.phos s.rbuf i).exists_next
  exact ⟨t, ht⟩

theorem cpuStep_total (rnd : Option Byte) (s : State) : ∃ t, cpuStep rnd s = .next t := by
  cases hs : s.status with
  | halted r => exact ⟨s, cpuStep_of_halted hs rnd⟩
  | running =>
    cases hf : fetch16 s.PC.toNat s with
    | error e => exact ⟨_, cpuStep_of_fetch_error hs hf rnd⟩
    | ok w =>
      cases hd : decode w with
      | error d => exact ⟨_, cpuStep_of_decode_error hs hf hd rnd⟩
      | ok i =>
        rw [cpuStep_of_decode hs hf hd]
        exact exec_total i _

theorem hostStep_total {h : HostStep} (hrom : ∀ rom, h = .reset rom → rom.length ≤ 3584) (s : State) :
    ∃ t, hostStep h s = .next t := by
  cases h with
  | cpuStep rnd => exact cpuStep_total (some rnd) s
  | timerStep => exact ⟨_, rfl⟩
  | renderStep => exact ⟨_, rfl⟩
  | keyPress k => exact ⟨_, rfl⟩
  | keyRelease k => exact ⟨_, rfl⟩
  | reset rom =>
    obtain ⟨t, ht, -⟩ := resetWith_isRunning (hrom rom rfl) s
    exact ⟨t, ht⟩

theorem resetWith_of_oversize {rom : List Byte} (hl : 3584 < rom.length) (s : State) :
    resetWith rom s = .refused (.romTooLong rom.length) := if_pos hl

/-- Settles O12: an instruction, a `cpu_step` and a host step each answer a next state, but for the reset that is
refused. -/
theorem onlyAnOversizeRomIsRefused : Obligations.OnlyAnOversizeRomIsRefused := by
  refine ⟨exec_total, fun s hrom => ?_, fun s rom rest hin hl => ?_⟩
  · cases hin : s.inputs with
    | nil =>
      rw [step_of_no_inputs hin]
      exact cpuStep_total none s
    | cons h rest =>
      rw [step_of_inputs hin]
      exact hostStep_total (fun rom hh => hrom rom rest (hh ▸ hin)) _
  · exact (step_of_inputs hin).trans (resetWith_of_oversize hl _)

/-! ## Which fault an instruction raises -/

/-- A halted answer `t` of an instruction that completes with the status as before, or raises `e` where `C` holds, is
the second: `C` holds, and the record is that of `e` (R118). -/
theorem record_of_halted {i : Instr} {s t : State} {r : FaultRecord} {e : Raised} {C : Prop} (hr : s.isRunning)
    (ht : exec i s = .next t) (hhalt : t.status = .halted r)
    (h : (∃ u, exec i s = .next u ∧ u.status = s.status) ∨
      (C ∧ exec i s = .next (takeFault e (s.PC - 2) (some (encode i)) s))) :
    C ∧ r = ⟨e.kind, e.info, s.PC - 2, some (encode i)⟩ := by
  rcases h with ⟨u, he, hstatus⟩ | ⟨hC, he⟩ <;> obtain rfl := Host.Outcome.next.inj (ht.symm.trans he)
  · exact absurd (hhalt.symm.trans (hstatus.trans hr)) (by simp)
  · exact ⟨hC, (Status.halted.inj ((takeFault_status e _ _ s).symm.trans hhalt)).symm⟩

theorem skipIf_status (c : Bool) (s : State) : (skipIf c s).status = s.status := by cases c <;> rfl

theorem setRegsFrom_status (k : Nat) (bs : List Byte) (s : State) : (State.setRegsFrom k bs s).status = s.status := by
  obtain ⟨V, hV⟩ := State.setRegsFrom_eq s k bs
  rw [hV]

/-- Settles O11: each of the eight instructions with a fault has its own case lemma; the others complete. -/
theorem eachInstructionRaisesOnlyItsOwnFault : Obligations.EachInstructionRaisesOnlyItsOwnFault := by
  intro i s t r hr ht hhalt
  have record {e : Raised} {C : Prop} := record_of_halted (e := e) (C := C) hr ht hhalt
  have completes : ∀ {u}, exec i s = .next u → u.status = s.status → False := fun he hu =>
    (record (e := ⟨.unknownOpcode, none⟩) (.inl ⟨_, he, hu⟩)).1
  cases i with
  | sys nnn =>
    obtain ⟨-, rfl⟩ := record (C := True) (.inr ⟨trivial, exec_sys nnn s⟩)
    exact ⟨rfl, rfl, rfl, rfl⟩
  | ret =>
    obtain ⟨hC, rfl⟩ := record ((execRet_cases s).imp_left fun ⟨_, _, _, he⟩ => ⟨_, he, rfl⟩)
    exact ⟨rfl, rfl, rfl, rfl, hC⟩
  | call nnn =>
    obtain ⟨hC, rfl⟩ := record ((execCall_cases nnn s).imp_left fun ⟨_, he⟩ => ⟨_, he, rfl⟩)
    exact ⟨rfl, rfl, rfl, rfl, hC⟩
  | addI x =>
    obtain ⟨hC, rfl⟩ := record ((execAddI_cases x s).imp_left fun ⟨_, he⟩ => ⟨_, he, rfl⟩)
    exact ⟨rfl, rfl, rfl, rfl, hC⟩
  | drw x y n =>
    obtain ⟨hC, rfl⟩ := record ((execDrw_cases x y n s).imp_left fun ⟨_, he⟩ => ⟨_, he, rfl⟩)
    exact ⟨rfl, rfl, rfl, rfl, by omega, by omega⟩
  | ldB x =>
    obtain ⟨hC, rfl⟩ := record ((execLdB_cases x s).imp_left fun ⟨_, he⟩ => ⟨_, he, rfl⟩)
    exact ⟨rfl, rfl, rfl, rfl, hC⟩
  | stRegs x =>
    obtain ⟨hC, rfl⟩ := record ((execStRegs_cases x s).imp_left fun ⟨_, he⟩ => ⟨_, he, rfl⟩)
    exact ⟨rfl, rfl, rfl, rfl, hC⟩
  | ldRegs x =>
    obtain ⟨hC, rfl⟩ := record ((execLdRegs_cases x s).imp_left fun ⟨_, he⟩ => ⟨_, he, setRegsFrom_status _ _ s⟩)
    exact ⟨rfl, rfl, rfl, rfl, hC⟩
  | seImm | sneImm | seReg | sneReg | skp | sknp => exact (completes rfl (skipIf_status _ s)).elim
  | rnd x nn => rcases execRnd_cases x nn s with ⟨_, -, he⟩ | ⟨-, he⟩ <;> exact (completes he rfl).elim
  | ldVxK x =>
    rcases execLdVxK_cases x s with ⟨-, -, he⟩ | ⟨_, -, -, he⟩ | ⟨_, -, -, he⟩ | ⟨_, -, -, he⟩ <;>
      exact (completes he rfl).elim
  | cls | jp | jpV0 | ldI | ldF | ldDtVx | ldStVx => exact (completes rfl rfl).elim
  | ldImm | addImm | ldReg | orReg | andReg | xorReg | ldVxDt => exact (completes rfl rfl).elim
  | addReg | subReg | shr | subnReg | shl => exact (completes rfl rfl).elim

end Sys2Proof.Machine
end

section
/-! The stack round trip, the random byte, the store that a fetch sees, and the sprite drawn twice
(40_control_flow.md section 2, 41_alu.md section 5, 20_memory.md section 4, 45_display.md section 3). -/

namespace Sys2Proof.Machine

/-! ## Call and return -/

/-- 00EE with something on the stack (R68). -/
theorem execRet_of_append {s : State} {l : List Word} {v : Word} (h : s.stack = l ++ [v]) :
    execRet s = .next ((s.setStack l).setPC v) := by
  rcases execRet_cases s with ⟨l', v', h', he⟩ | ⟨h', -⟩
  · obtain ⟨rfl, hv⟩ := List.append_inj' (h.symm.trans h') rfl
    rw [he, List.cons.inj hv |>.1]
  · simp [h] at h'

theorem execRet_of_empty {s : State} (h : s.stack = []) :
    execRet s = .next (takeFault ⟨.stackUnderflow, none⟩ (s.PC - 2) (some (encode .ret)) s) := by
  rcases execRet_cases s with ⟨l, v, h', -⟩ | ⟨-, he⟩
  · simp [h] at h'
  · exact he

/-- 2NNN with room on the stack (R70). -/
theorem execCall_of_room {s : State} (h : s.stack.length < 12) (nnn : Addr) :
    execCall nnn s = .next ((s.setStack (s.stack ++ [s.PC])).setPC (targetOf nnn)) := by
  rcases execCall_cases nnn s with ⟨-, he⟩ | ⟨h', -⟩
  · exact he
  · omega

/-- Settles O14: both outcomes of the pop. -/
theorem retPopsTheReturnAddress : Obligations.RetPopsTheReturnAddress := by
  refine ⟨rfl, fun s l v h => ?_, fun s h => halts_of_takeFault (execRet_of_empty h)⟩
  exact ⟨_, execRet_of_append h, rfl, rfl, frame_setStack_setPC s l v⟩

/-- Settles O15: both outcomes of the push. -/
theorem callPushesTheReturnAddress : Obligations.CallPushesTheReturnAddress := by
  intro nnn s
  refine ⟨toNat_formatNNN 2 nnn, fun h => ?_, fun h => ?_⟩
  · exact ⟨_, execCall_of_room h nnn, rfl, toNat_targetOf nnn, frame_setStack_setPC s _ _⟩
  · rcases execCall_cases nnn s with ⟨h', -⟩ | ⟨-, he⟩
    · omega
    · exact halts_of_takeFault he

/-- Settles O16: the entry popped is the one pushed, and the two instructions write PC and the stack alone. -/
theorem callThenRetComesBack : Obligations.CallThenRetComesBack := by
  intro nnn s t hroom ht pc
  obtain rfl := Host.Outcome.next.inj ((execCall_of_room hroom nnn).symm.trans ht)
  exact ⟨_, execRet_of_append (l := s.stack) (v := s.PC) rfl, rfl, rfl, by simp [Frame]⟩

/-! ## The random byte -/

theorem frame_countFree_setReg (s : State) (x : Reg) (v : Byte) :
    Frame { regs := (· = x) } s (s.countFree.setReg x v) := frame_setReg s x v

/-- Settles O25: the byte is the host's, or the free value that is drawn where the host sent none. -/
theorem randomMasksTheDrawnByte : Obligations.RandomMasksTheDrawnByte := by
  intro x nn s
  refine ⟨toNat_formatXNN 0xC x nn, ?_⟩
  rcases execRnd_cases x nn s with ⟨r, hr, he⟩ | ⟨hr, he⟩
  · refine ⟨r, fun r' h => ?_, completes_of_setReg (R := (· = r &&& nn)) he rfl⟩
    exact Option.some.inj (hr.symm.trans h)
  · refine ⟨Config.randomByte s.freeCount, fun r' h => ?_, _, he, ?_, frame_countFree_setReg s x _⟩
    · simp [hr] at h
    · rw [State.reg_setReg, if_pos rfl]

/-! ## A store and the next fetch -/

/-- Settles O31: FX55 leaves V0 at I and V1 at I + 1, which are the two bytes of the fetch. -/
theorem rangeStoreIsSeenByTheNextFetch : Obligations.RangeStoreIsSeenByTheNextFetch := by
  intro x s hM hx hin
  obtain ⟨-, hstore, -⟩ := rangeStoreStoresV0ToVx x s
  obtain ⟨t, ht, hread, -⟩ := hstore hM hin
  have h0 : t.M.read s.I.toNat = s.reg 0 := hread 0 (Nat.zero_le _)
  have h1 : t.M.read (s.I.toNat + 1) = s.reg 1 := hread 1 hx
  exact ⟨t, ht, (fetch16_inside (by omega) t).trans (by rw [h0, h1])⟩

/-! ## The sprite drawn twice -/

/-- A row that is not 0 has a set bit. -/
theorem exists_set_bit {row : Byte} (h : row ≠ 0) : ∃ c, c < 8 ∧ row.toNat / 2 ^ (7 - c) % 2 = 1 := by
  by_contra hno
  push Not at hno
  refine h (BitVec.eq_of_getLsbD_eq fun k hk => ?_)
  have hc := mt (spriteBit_eq_true_iff row (7 - k)).1 (hno (7 - k) (by omega))
  rw [spriteBit, Nat.sub_sub_self (by omega)] at hc
  simpa using hc

/-- A sprite with a row that is not 0 hits a pixel. -/
theorem exists_spriteHits (s : State) (x y : Byte) {n r : Nat} (hr : r < n) (hrow : s.M.read (s.I.toNat + r) ≠ 0) :
    ∃ px py, SpriteHits s x y n px py := by
  obtain ⟨c, hc, hbit⟩ := exists_set_bit hrow
  exact ⟨Fin.ofNat 64 (x.toNat + c), Fin.ofNat 32 (y.toNat + r), r, hr, c, hc, hbit, rfl, rfl⟩

/-- Where a sprite hits depends on I and memory alone. -/
theorem spriteHits_congr {s t : State} (hI : t.I = s.I) (hM : ∀ a, t.M.read a = s.M.read a) :
    SpriteHits t = SpriteHits s := by
  unfold SpriteHits
  simp only [hI, hM]

/-- Settles O37: the second draw hits the pixels of the first, because the first changes nothing that says which they
are; so each is toggled back, and is on before that if it was off at the start. -/
theorem drawingTwiceRestoresThePixels : Obligations.DrawingTwiceRestoresThePixels := by
  intro x y n s t hx hy hin ht
  obtain ⟨-, hdraw, -⟩ := drawTogglesExactlyTheSpritePixels x y n s
  obtain ⟨t', ht', hhit, hmiss, hcoll, -, hregs, hM, hI, -⟩ := hdraw hin
  obtain rfl := Host.Outcome.next.inj (ht'.symm.trans ht)
  replace hI : t'.I = s.I := hI.resolve_left id
  have hhits := spriteHits_congr hI fun a => (hM a).resolve_left id
  obtain ⟨-, hdraw', -⟩ := drawTogglesExactlyTheSpritePixels x y n t'
  obtain ⟨u, hu, hhit', hmiss', hcoll', -⟩ := hdraw' (hI ▸ hin)
  rw [hhits, (hregs x).resolve_left hx, (hregs y).resolve_left hy] at hhit' hmiss' hcoll'
  refine ⟨u, hu, fun px py => ?restored, fun hvf ⟨r, hr, hrow⟩ => hcoll' ?collides⟩
  case restored =>
    by_cases h : SpriteHits s (s.reg x) (s.reg y) n.toNat px py
    · rw [(hhit' px py h).1, (hhit px py h).1, Bool.not_not]
    · rw [(hmiss' px py h).1, (hmiss px py h).1]
  case collides =>
    obtain ⟨px, py, h⟩ := exists_spriteHits s (s.reg x) (s.reg y) hr hrow
    have hoff : gridCell s.lit px py = false := Bool.eq_false_iff.mpr fun hon =>
      absurd (hvf.symm.trans (hcoll ⟨px, py, h, hon⟩)) (by decide)
    exact ⟨px, py, h, by rw [(hhit px py h).1, hoff, Bool.not_false]⟩

end Sys2Proof.Machine
end

section
/-! The reset state (10_state.md section 12). -/

namespace Sys2Proof.Machine

/-- Settles O43: memory lists nothing, so it reads as the font and as 0 elsewhere. -/
theorem resetLeavesTheValuesOfTheTable : Obligations.ResetLeavesTheValuesOfTheTable :=
  ⟨State.reset_hasResetValues [] [] 0, Memory.unlisted_font, fun _ _ h => Memory.unlisted_outside_font h⟩

/-- Settles O46: memory lists nothing and the stack is empty. -/
theorem resetStateIsLegal : Obligations.ResetStateIsLegal := ⟨rfl, Nat.zero_le 12⟩

/-- Settles O50: no pixel is on, no wait is pending, PC is 0x200 and the stack is empty. -/
theorem resetStateHasTheRunningInvariants : Obligations.ResetStateHasTheRunningInvariants := by
  refine ⟨fun _ px py hon => ?glow, fun _ hne => absurd rfl hne, fun _ => ⟨by decide, fun v hv => ?addresses⟩⟩
  case glow => simp [State.reset] at hon
  case addresses => simp [State.reset] at hv

end Sys2Proof.Machine
end
